-- ==== Sys2Proof/Word.lean ====
section
/-!
DEFINITION. The words of the sequencer: a byte, a 32-bit value, a 6-bit instruction-register code
(00_scope.md rules R7 and R9), the ceiling of a bit count in bytes, and the bitstream phase.
-/

namespace Sys2Proof

/-- `u8` of 00_scope.md rule R9. -/
abbrev Byte := BitVec 8

/-- `u32` of 00_scope.md rule R9; a device register value has `REG_BITS` = 32 bits (R7). -/
abbrev Word := BitVec 32

/-- An instruction-register code or capture: `IR_BITS` = 6 bits (R7, R81). -/
abbrev IrCode := BitVec 6

/-- `ceil(n/8)`, that is `(n + 7) div 8` (R9): how many bytes hold `n` bits. -/
def ceil8 (n : Nat) : Nat := (n + 7) / 8

/-- `S.phase` (10_state.md rule R24). The source's Complete state is not held (R170, C5). -/
inductive Phase where
  | idle
  | headerReceived
  | streaming
deriving DecidableEq, Repr

end Sys2Proof
end

