-- ==== Sys2Proof/Syntax.lean ====
section
/-!
DEFINITION. The commands as syntax: one constructor for each row of spec/opcode_table.json
(30_encoding.md rules R71 to R73 and R82). `d` is the frame's device byte.
-/

namespace Sys2Proof

/-- A complete command frame, with the operands of 30_encoding.md rule R72. -/
inductive Instr where
  /-- `PING d` (R220). -/
  | ping (d : Byte)
  /-- `VERSION d` (R221). -/
  | version (d : Byte)
  /-- `DEVCOUNT d` (R222). -/
  | devcount (d : Byte)
  /-- `IDCODE d` (R223). -/
  | idcode (d : Byte)
  /-- `USERCODE d` (R224). -/
  | usercode (d : Byte)
  /-- `PROG d, L` (R225, R171): the header frame of a bitstream transfer. -/
  | prog (d : Byte) (length : Word)
  /-- `SETCLK d, r` (R226). -/
  | setclk (d : Byte) (request : Word)
  /-- `GETCLK d` (R227). -/
  | getclk (d : Byte)
  /-- `WORK d, w0, ..., w10` (R228). -/
  | work (d : Byte) (words : List Word)
  /-- `RESULT d` (R229). -/
  | result (d : Byte)
  /-- `TEMP d` (R230). -/
  | temp (d : Byte)
  /-- `WREG d, a, v` (R231). -/
  | wreg (d : Byte) (addr : Byte) (value : Word)
  /-- `RREG d, a` (R232). -/
  | rreg (d : Byte) (addr : Byte)
  /-- `TEMP16 d` (R233). -/
  | temp16 (d : Byte)
  /-- `AUXSHIFT d, n, p0, ..., p(m-1)` (R234). -/
  | auxshift (d : Byte) (bits : Byte) (payload : List Byte)
  /-- `CHUNK b0, ..., b(k-1)` (R73, R172, R173): a continuation frame; `d` is the retained byte 1. -/
  | chunk (d : Byte) (data : List Byte)
deriving DecidableEq, Repr

end Sys2Proof
end

