-- ==== Sys2Proof/WellFormed.lean ====
section
/-!
DEFINITION. Which commands are frames of 30_encoding.md rule R72: the three operand lists whose length
the frame format fixes or bounds. Every other operand is legal at every value (R77).
-/

namespace Sys2Proof

/-- The command is one a frame can carry: WORK has 11 words, AUXSHIFT has `ceil(n/8)` payload bytes, and
a CHUNK has at most 32 bytes (R72). Which chunk length a transfer waits for is the decoder's context. -/
def Instr.wf : Instr → Bool
  | .ping _ => true
  | .version _ => true
  | .devcount _ => true
  | .idcode _ => true
  | .usercode _ => true
  | .prog _ _ => true
  | .setclk _ _ => true
  | .getclk _ => true
  | .work _ words => words.length == 11
  | .result _ => true
  | .temp _ => true
  | .wreg _ _ _ => true
  | .rreg _ _ => true
  | .temp16 _ => true
  | .auxshift _ bits payload => payload.length == ceil8 bits.toNat
  | .chunk _ data => data.length ≤ 32

end Sys2Proof
end

