-- ==== Sys2Proof/Decode.lean ====
section
/-!
DEFINITION. Decoding a frame buffer into a command (30_encoding.md rules R70 to R77), total on any
bytes and rejecting by name, and the encoder beside it. The decoder's context is `S.phase` and
`S.remaining`, the only state that `MINLEN` reads beside the frame bytes (R75, R202).
-/

namespace Sys2Proof

/-- `CHUNK`: the bitstream chunk size in bytes (R7). -/
def chunkBytes : Nat := 32

/-- `WORK_WORDS`: the words of a Submit-work frame (R7). -/
def workWords : Nat := 11

/-- `LE4(v)`: the four bytes of a value, least significant first (20_memory.md rules R52 and R53). -/
def le4 (v : Word) : List Byte :=
  [v.extractLsb' 0 8, v.extractLsb' 8 8, v.extractLsb' 16 8, v.extractLsb' 24 8]

/-- `MemRead(i, 4)` on a list of frame bytes: little-endian (R11, R52). -/
def memRead4 (F : List Byte) (i : Nat) : Word :=
  F.getD (i + 3) 0 ++ F.getD (i + 2) 0 ++ F.getD (i + 1) 0 ++ F.getD i 0

/-- `k` of 30_encoding.md rule R72: how many bytes the next chunk of a transfer has. -/
def chunkLen (ph : Phase) (rem : Word) : Nat :=
  match ph with
  | .idle => 0
  | .headerReceived => chunkBytes
  | .streaming => min rem.toNat chunkBytes

/-- `MINLEN()` (R75): the length at which the buffered frame is ready; none for an empty buffer (it is
never read, U1) and for an unrecognized opcode (R76). -/
def minLen (ph : Phase) (rem : Word) (F : List Byte) : Option Nat :=
  match F with
  | [] => none
  | op :: _ =>
    match op.toNat with
    | 0x00 => some 2
    | 0x01 => some 2
    | 0x02 => some 2
    | 0x03 => some 2
    | 0x04 => some 2
    | 0x05 => if ph = .idle then some 6 else some (2 + chunkLen ph rem)
    | 0x06 => some 6
    | 0x07 => some 2
    | 0x08 => some 46
    | 0x09 => some 2
    | 0x0A => some 2
    | 0x0B => some 7
    | 0x0C => some 3
    | 0x0D => some 2
    | 0x0E => if F.length < 3 then some 3 else some (3 + ceil8 (F.getD 2 0).toNat)
    | _ => none

/-- Why a frame buffer holds no command yet. None of these is an error: each is answered `NeedMore`
(45_dispatcher.md rules R203 and R207). -/
inductive DecodeError where
  /-- The buffer is empty (U1). -/
  | empty
  /-- Byte 0 is an unrecognized opcode, 0x0F to 0xFF (R76). -/
  | unrecognized (op : Byte)
  /-- The frame has fewer bytes than its minimum length (R203). -/
  | incomplete (have_ need : Nat)
deriving DecidableEq, Repr

/-- The operands of a ready frame (R72, R74). `need` is the frame's minimum length. -/
def decodeReady (ph : Phase) (need : Nat) (op d : Byte) (F : List Byte) : Except DecodeError Instr :=
  match op.toNat with
  | 0x00 => .ok (.ping d)
  | 0x01 => .ok (.version d)
  | 0x02 => .ok (.devcount d)
  | 0x03 => .ok (.idcode d)
  | 0x04 => .ok (.usercode d)
  | 0x05 => if ph = .idle then .ok (.prog d (memRead4 F 2)) else .ok (.chunk d ((F.take need).drop 2))
  | 0x06 => .ok (.setclk d (memRead4 F 2))
  | 0x07 => .ok (.getclk d)
  | 0x08 => .ok (.work d ((List.range workWords).map fun j => memRead4 F (2 + 4 * j)))
  | 0x09 => .ok (.result d)
  | 0x0A => .ok (.temp d)
  | 0x0B => .ok (.wreg d (F.getD 2 0) (memRead4 F 3))
  | 0x0C => .ok (.rreg d (F.getD 2 0))
  | 0x0D => .ok (.temp16 d)
  | 0x0E => .ok (.auxshift d (F.getD 2 0) ((F.take need).drop 3))
  | _ => .error (.unrecognized op)

/-- The command that the buffered bytes name, when the frame is ready (R75, R202). -/
def decode (ph : Phase) (rem : Word) (F : List Byte) : Except DecodeError Instr :=
  match F with
  | [] => .error .empty
  | op :: rest =>
    match minLen ph rem (op :: rest) with
    | none => .error (.unrecognized op)
    | some need =>
      if rest.length + 1 < need then .error (.incomplete (rest.length + 1) need)
      else decodeReady ph need op (rest.getD 0 0) (op :: rest)

/-- The frame bytes of a command, as they stand in the frame buffer (R72). -/
def encode : Instr → List Byte
  | .ping d => [0x00, d]
  | .version d => [0x01, d]
  | .devcount d => [0x02, d]
  | .idcode d => [0x03, d]
  | .usercode d => [0x04, d]
  | .prog d length => [0x05, d] ++ le4 length
  | .setclk d request => [0x06, d] ++ le4 request
  | .getclk d => [0x07, d]
  | .work d words => [0x08, d] ++ words.flatMap le4
  | .result d => [0x09, d]
  | .temp d => [0x0A, d]
  | .wreg d addr value => [0x0B, d, addr] ++ le4 value
  | .rreg d addr => [0x0C, d, addr]
  | .temp16 d => [0x0D, d]
  | .auxshift d bits payload => [0x0E, d, bits] ++ payload
  | .chunk d data => [0x05, d] ++ data

/-- The bytes the host sends for a command: its frame, but for a CHUNK only the data, since the
sequencer keeps the two header bytes (R73, R82). -/
def wireBytes : Instr → List Byte
  | .chunk _ data => data
  | i => encode i

/-- `n` chunks of an image, each of `min(remaining, 32)` bytes (R83). -/
def chunkList : Nat → List Byte → List (List Byte)
  | 0, _ => []
  | n + 1, image => image.take chunkBytes :: chunkList n (image.drop chunkBytes)

/-- The pseudo-command `PROGRAM d, image` (R83): the header and `ceil(L/32)` chunks, and for L = 32 the
empty final chunk that one more arbitrary byte brings about (R178). -/
def programFrames (d : Byte) (image : List Byte) : List Instr :=
  [.prog d (BitVec.ofNat 32 image.length)] ++
    (chunkList ((image.length + 31) / chunkBytes) image).map (.chunk d) ++
    if image.length = chunkBytes then [.chunk d []] else []

/-- The bytes the host sends for `PROGRAM d, image`; `extra` is the arbitrary byte of the L = 32 case. -/
def programWire (d : Byte) (image : List Byte) (extra : Byte) : List Byte :=
  (programFrames d image).flatMap wireBytes ++ if image.length = chunkBytes then [extra] else []

/-- The command is one the decoder reads in this phase with this remaining count (R72): a header in
phase Idle, a chunk of the awaited length in the other phases, any other command in any phase. -/
def Instr.fits (ph : Phase) (rem : Word) : Instr → Prop
  | .prog _ _ => ph = .idle
  | .chunk _ data => ph ≠ .idle ∧ data.length = chunkLen ph rem
  | _ => True

/-- The longest recognized frame, 46 bytes (R75). -/
def maxFrame : Nat := 46

/-- The bytes of a word of spec/opcode_table.json: bits 7..0 are frame byte 0, bits 15..8 frame byte 1,
and so on; every bit from `nbits` up is 0. -/
def tableBytes (nbits w : Nat) : List Byte :=
  (List.range maxFrame).map fun i => BitVec.ofNat 8 ((w >>> (8 * i)) % 2 ^ min 8 (nbits - 8 * i))

/-- The frame that a table word starts: as many of its bytes as its minimum length in phase Idle, or
byte 0 alone where that byte is unrecognized (log 7). -/
def tableFrame (nbits w : Nat) : List Byte :=
  (tableBytes nbits w).take ((minLen .idle 0 (tableBytes nbits w)).getD 1)

/-- The instruction the decoder reads from a table word, in phase Idle: the phase after reset (log 7). -/
def decodeTableWord (nbits w : Nat) : Option Instr :=
  match decode .idle 0 (tableFrame nbits w) with
  | .ok i => some i
  | .error _ => none

end Sys2Proof
end

