-- ==== Sys2Proof/Config.lean ====
section
/-!
DEFINITION. The OPEN parameters of 00_scope.md rule R7 and the free answers of the external agents
(41_scan_access.md rule R121). Each is a constant with no body, so that a claim holds for every value
of it (R8). Where R7 bounds a parameter, its type or the small definition over it carries the bound.
-/

namespace Sys2Proof

/-- One operation of `CFG_START_SEQ`, "a finite list of transport write operations" (R7): the
primitives of R120 that return nothing. A data-register write gives its whole bytes and, when its bit
count is no multiple of 8, a last byte of which `k + 1` bits are sent. It has no `last` flag of its own: it
always ends its shift, since R128 gives `last = false` to the chunks of R172 and R173 alone (log 14). -/
inductive CfgOp where
  | writeIr (code : IrCode)
  | writeDr (whole : List Byte) (part : Option (Fin 7 × Byte))
  | run (strobes : Nat)
  | reset
deriving DecidableEq, Repr

/-- How far `FRAME_CAP` lies above 46 (R7: "OPEN, at least 46"). -/
opaque Config.frameCapBeyond : Nat

/-- `FRAME_CAP`, the frame buffer's capacity in bytes: at least 46 (R7, R22; log 11). -/
def Config.frameCap : Nat := Config.frameCapBeyond + 46

/-- `IR_USER`, the generic data-register instruction (R7). -/
opaque Config.irUser : IrCode
/-- `IR_IDCODE` (R7). -/
opaque Config.irIdcode : IrCode
/-- `IR_USERCODE` (R7). -/
opaque Config.irUsercode : IrCode
/-- `IR_CFG_IN`, the data-load instruction of the bitstream load (R7). -/
opaque Config.irCfgIn : IrCode
/-- `IR_JSTART`, the configuration-start-operation instruction (R7). -/
opaque Config.irJstart : IrCode
/-- `IR_AUX`, the instruction that selects the auxiliary register (R7). -/
opaque Config.irAux : IrCode

/-- `CFG_START_SEQ`, the configuration-start control sequence (R7, R171). -/
opaque Config.cfgStartSeq : List CfgOp

/-- `STATUS_POLL_BIT`, 0..5 (R7, R177). -/
opaque Config.statusPollBit : Fin 6

/-- `BITSTREAM_OK`, the success predicate on the final status (R7, R174). -/
opaque Config.bitstreamOk : IrCode → Bool

/-- `ACK_READY` (R7, R171). -/
opaque Config.ackReady : Byte
/-- `ACK_CHUNK` (R7, R172). -/
opaque Config.ackChunk : Byte

/-- The first character of `VERSION_STRING`, 7 bits of ASCII. -/
opaque Config.versionHead : BitVec 7
/-- The other characters of `VERSION_STRING`. -/
opaque Config.versionTail : List (BitVec 7)

/-- `VERSION_STRING`: "fixed non-empty list of ASCII bytes" (R7, R221; log 15). -/
def Config.versionString : List Byte :=
  (Config.versionHead :: Config.versionTail).map (BitVec.setWidth 8)

/-- `REG_CLOCK_WR`, 0..15 (R7, R226). -/
opaque Config.regClockWr : BitVec 4
/-- `REG_CLOCK_RD`, 0..31 (R7, R227). -/
opaque Config.regClockRd : BitVec 5
/-- `REG_RESULT`, 0..31 (R7, R229). -/
opaque Config.regResult : BitVec 5

/-- `COARSE_BYTE`, the response byte made from the 9-bit coarse reading (R7, R230). -/
opaque Config.coarseByte : BitVec 9 → Byte

/-- The free answers of the transport and the pins: the byte answered at the `n`-th draw, under no
law (R121, R150; log 2). -/
opaque Config.freeAnswer : Nat → Byte

end Sys2Proof
end

