-- ==== Sys2Proof/Machine/State.lean ====
section
/-!
DEFINITION. The state of the sequencer (10_state.md), the events it records, the ways a step can stop,
and the state right after process reset (70_reset_and_hazards.md rule R290).
-/

namespace Sys2Proof.Machine

/-- The frame buffer `F` (10_state.md rule R22): the bytes written so far by offset, offsets strictly
rising. An unlisted offset has no value (log 10). -/
abbrev Memory := List Host.Cell

/-- The codes of `FAULT` (60_exceptions.md rule R261). -/
inductive FaultCode where
  /-- Code 1, raised by RESOLVE (42_topology.md rule R142). -/
  | unassignedDevice
  /-- Code 2, raised by append (45_dispatcher.md rule R201). -/
  | frameOverflow
  /-- Code 3, raised by the first chunk (44_bitstream.md rule R179). -/
  | bitstreamShort
deriving DecidableEq, Repr

/-- The number that R261 gives a code. -/
def FaultCode.number : FaultCode → Nat
  | .unassignedDevice => 1
  | .frameOverflow => 2
  | .bitstreamShort => 3

/-- What a pin of a temperature triple is for (43_temperature.md rule R150). -/
inductive PinRole where
  | cs
  | clk
  | data
deriving DecidableEq, Repr

/-- One of the 12 pins of `TEMP_PINS`, named by its role and its triple (R7, R150; log 13). -/
structure Pin where
  role : PinRole
  triple : Fin 4
deriving DecidableEq, Repr

/-- A pin's direction (R150). -/
inductive PinDir where
  | output
  | input
deriving DecidableEq, Repr

/-- One transaction on an interface, with its arguments (41_scan_access.md rules R120 and R121,
43_temperature.md rule R150), or one response given to the byte sink (R11 `EMIT`, R206). -/
inductive Event where
  | scChains
  | scProbe (c : Byte)
  | scWriteIr (c : Byte) (code : IrCode)
  | scReadIr (c : Byte)
  | scWriteDr (c : Byte) (buf : List Byte) (nbits : Nat) (last : Bool)
  | scReadDr (c : Byte) (nbits : Nat) (tx : List Byte)
  | scRun (c : Byte) (strobes : Nat)
  | scReset (c : Byte)
  | gpioDir (pin : Pin) (dir : PinDir)
  | gpioWrite (pin : Pin) (level : Bool)
  | gpioRead (pin : Pin)
  | emit (bytes : List Byte)
deriving DecidableEq, Repr

/-- What the outside does next (60_exceptions.md rule R269; log 1). -/
inductive HostInput where
  /-- The host byte source delivers a byte (45_dispatcher.md rule R200). -/
  | byte (b : Byte)
  /-- A new physical connection starts: session reset (70_reset_and_hazards.md rule R292). -/
  | connect
  /-- Power-on: process reset (R290). -/
  | powerOn
  /-- Nothing arrives during this step (R269: "any pause between bytes"). -/
  | pause
deriving DecidableEq, Repr

/-- Where the sequencer is in its one thread of control. -/
inductive Control where
  /-- Process reset has set the registers and discovery is still to run (R290, R291; log 6). -/
  | discovery
  /-- Waiting for a byte (R290: "its wait for a byte"). -/
  | ready
  /-- In the status poll of a bitstream header (44_bitstream.md rule R177): the chain, and the header's
  length `L`. The header's `on_byte` has not returned (log 5). -/
  | polling (c : Byte) (length : Word)
deriving DecidableEq, Repr

/-- What `on_byte` returned (45_dispatcher.md rule R200). -/
inductive ByteOutcome where
  | needMore
  | consumed
deriving DecidableEq, Repr

/-- The whole state: the elements of 10_state.md section 8, then the progress of a step that is not over,
then the model's own record of the outside (log 1, log 2, log 4, log 16). -/
structure State where
  /-- `S.frame`, the bytes `F[i]` (R22). -/
  frame : Memory
  /-- `S.len` (R23). -/
  len : Nat
  /-- `S.phase` (R24). -/
  phase : Phase
  /-- `S.remaining` (R25). -/
  remaining : Word
  /-- `T.pos[0..4]` (R26). -/
  pos : Vector Byte 5
  /-- `T.capped[0..4]` (R27). -/
  capped : Vector Bool 5
  /-- `T.count`, 0..4 (R28). -/
  count : Fin 5
  /-- `G.configured` (R30). -/
  configured : Bool
  /-- `FAULT` (R31). -/
  fault : Option FaultCode
  /-- The sequencer's place in its thread of control. -/
  ctl : Control
  /-- What the outside will do, first thing first. -/
  host : List HostInput
  /-- The bytes that the transport and the pins will answer next (R121, R150). -/
  answers : List Byte
  /-- How many free answers have been taken since `answers` ran out. -/
  draws : Nat
  /-- Every transaction and every response so far, oldest first (R61, R121). -/
  trace : List Event
  /-- What `on_byte` returned in the last step, none where it did not return (R200). -/
  outcome : Option ByteOutcome
deriving DecidableEq, Repr

/-- Why a step has no next state. -/
inductive Fault where
  /-- Raised by a step of a state whose `FAULT` is set: "no successor from a faulted state" (R262).
  Safe: the model stops where the spec's machine stops. -/
  | halted (code : FaultCode)
  /-- Raised by fetching a frame whose buffer lacks a byte below `S.len`. Safe: no run reaches such a
  state, and R22 gives an unwritten byte no value. -/
  | unwrittenFrameByte
  /-- Raised by executing CHUNK in phase Idle, a pair that "no other pair can occur" of R204 excludes.
  Safe: the decoder never gives it. -/
  | chunkOutsideTransfer
deriving DecidableEq, Repr

/-- Why an instruction has no meaning in the model. -/
inductive Refusal where
  /-- Raised by an arm of `exec` for an instruction that has no meaning yet. Safe. -/
  | notModelled (mnemonic : String)
deriving DecidableEq, Repr

/-- `UNASSIGNED`: the chain-position sentinel 0xFF (R7, R26). -/
def unassigned : Byte := 0xFF

/-- The state right after process reset has set every element (R290 steps 1 to 3); discovery, step 4,
is the first step that follows (log 6). -/
def State.reset : State where
  frame := []
  len := 0
  phase := .idle
  remaining := 0
  pos := #v[unassigned, unassigned, unassigned, unassigned, unassigned]
  capped := #v[false, false, false, false, false]
  count := 0
  configured := false
  fault := none
  ctl := .discovery
  host := []
  answers := []
  draws := 0
  trace := []
  outcome := none

end Sys2Proof.Machine
end

