-- ==== Sys2Proof/Machine/Params.lean ====
section
/-!
DEFINITION. The settled parameters of 00_scope.md rule R7 ("Source" and "decided" values), each under
the spec's name. `CHUNK` and `WORK_WORDS` are in Decode.lean, `SLOTS` = 5 is the length of the Device
Table's vectors, `IR_BITS` and `REG_BITS` are the types of Word.lean.
-/

namespace Sys2Proof.Machine

/-- `MAX_LIVE`: the slots discovery may fill. -/
def maxLive : Nat := 4
/-- `TEMP_DEVICES`: the GPIO triples. -/
def tempDevices : Nat := 4
/-- `N_COARSE`: the bits of a coarse temperature read. -/
def nCoarse : Nat := 9
/-- `N_FINE`: the bits of a high-resolution temperature read. -/
def nFine : Nat := 16
/-- `FINAL_STROBES`: the run strobes after the start-operation instruction. -/
def finalStrobes : Nat := 16
/-- `STATUS_BITS`: the width of the final status. -/
def statusBits : Nat := 6
/-- `CLOCK_MAX`: the largest clock request accepted as it is. -/
def clockMax : Word := 250
/-- `CLOCK_CLAMP`: what a larger request is clamped to. -/
def clockClamp : Word := 50
/-- `WORK_BASE`: the first register of Submit work. -/
def workBase : Nat := 1
/-- `REG_BITS`: the width of a device register. -/
def regBits : Nat := 32
/-- `RD_ADDR_BITS`: the address field of a register read. -/
def rdAddrBits : Nat := 5
/-- `WR_ADDR_BITS`: the address field of a register write. -/
def wrAddrBits : Nat := 4
/-- `WRITE_STROBES`: the run strobes that latch a register write. -/
def writeStrobes : Nat := 1

end Sys2Proof.Machine
end

