-- ==== Sys2Proof/Machine/Codec.lean ====
section
/-!
DEFINITION. The Bit Codec (40_bit_codec.md): pure functions on buffers, and the two scan-chain payloads
and the 4-byte response made with them (30_encoding.md rules R78 to R80).
-/

namespace Sys2Proof.Machine

/-- A buffer of scan-chain bytes (00_scope.md rule R10). -/
abbrev Buffer := List Byte

/-- `vget_T(buf, j)`: vector index `j` in the transmit representation (R100). -/
def vgetT (buf : Buffer) (j : Nat) : Bool := (buf.getD (j / 8) 0).getLsbD (7 - j % 8)

/-- `vset_T(buf, j)`: set vector index `j` in the transmit representation (R100). -/
def vsetT (buf : Buffer) (j : Nat) : Buffer := buf.modify (j / 8) fun x => x ||| (0x80#8 >>> (j % 8))

/-- `vget_R(buf, j)`: vector index `j` in the register representation (R100). -/
def vgetR (buf : Buffer) (j : Nat) : Bool := (buf.getD (j / 8) 0).getLsbD (j % 8)

/-- `pack_bits(value, width)` (R101): value bit `i` at vector index `i`, transmit representation. -/
def packBits (value : Word) (width : Nat) : Buffer :=
  (List.range width).foldl (fun buf i => if value.getLsbD i then vsetT buf i else buf)
    (List.replicate (ceil8 width) 0)

/-- `unpack_bits(buf, width)` (R102): value bit `i` from vector index `i`, register representation. -/
def unpackBits (buf : Buffer) (width : Nat) : Word :=
  (List.range width).foldl (fun v i => if vgetR buf i then v ||| (1#32 <<< i) else v) 0

/-- `rev8(x)[i] = x[7-i]` (R103). -/
def rev8 (x : Byte) : Byte := x.reverse

/-- `reverse_bit_order(buf, bit_count)` (R104): whole bytes only. -/
def reverseBitOrder (buf : Buffer) (bitCount : Nat) : Buffer :=
  (buf.take (bitCount / 8)).map rev8 ++ buf.drop (bitCount / 8)

/-- The XOR of vector indices 0 .. bit_count-1, transmit representation (R107). -/
def parityT (buf : Buffer) (bitCount : Nat) : Bool :=
  (List.range bitCount).foldl (fun p j => p ^^ vgetT buf j) false

/-- `apply_odd_parity(buf, bit_count)` (R107): makes the total over 0 .. bit_count even (C1). -/
def applyOddParity (buf : Buffer) (bitCount : Nat) : Buffer :=
  if parityT buf bitCount then vsetT buf bitCount else buf

/-- The 6-bit register-read payload of 30_encoding.md rule R79, as R123 builds it. -/
def readPayload (addr : Byte) : Buffer :=
  applyOddParity (packBits (addr.setWidth 32 &&& 0x1F) rdAddrBits) rdAddrBits

/-- The 38-bit register-write payload of 30_encoding.md rule R80, as R124 builds it: 0x10 is the write
flag, at vector index 36. -/
def writePayload (addr : Byte) (value : Word) : Buffer :=
  applyOddParity
    (packBits value regBits ++ packBits ((addr.setWidth 32 &&& 0x0F) ||| 0x10) (wrAddrBits + 1))
    (regBits + wrAddrBits + 1)

/-- `RB4(v) = reverse_bit_order(LE4(v), 32)` (20_memory.md rule R53, R78). -/
def rb4 (v : Word) : Buffer := reverseBitOrder (le4 v) regBits

end Sys2Proof.Machine
end

