-- ==== Sys2Proof/Machine/Ops.lean ====
section
/-!
DEFINITION. The operations on State that the commands share: the frame buffer, the event record, the
answers drawn from the outside, the transport and GPIO primitives, raising a fault, process and session
reset, and the end of a consumed command.
-/

namespace Sys2Proof.Machine

/-- The byte at an offset, none where nothing was written (log 10). -/
def Memory.read? : Memory → Nat → Option Byte
  | [], _ => none
  | (k, b) :: m, a => if k = a then some b else Memory.read? m a

/-- Store a byte, keeping offsets strictly rising. -/
def Memory.write : Memory → Nat → Byte → Memory
  | [], a, b => [(a, b)]
  | (k, c) :: m, a, b =>
    if a < k then (a, b) :: (k, c) :: m
    else if a = k then (a, b) :: m
    else (k, c) :: Memory.write m a b

/-- The bytes at offsets `a .. a+n-1`, none where one of them was never written. -/
def Memory.readRange? (m : Memory) : Nat → Nat → Option (List Byte)
  | _, 0 => some []
  | a, n + 1 =>
    match Memory.read? m a, Memory.readRange? m (a + 1) n with
    | some b, some bs => some (b :: bs)
    | _, _ => none

/-- Store bytes at consecutive offsets from `a`. -/
def Memory.writeRange (m : Memory) : Nat → List Byte → Memory
  | _, [] => m
  | a, b :: bs => Memory.writeRange (Memory.write m a b) (a + 1) bs

/-- The canonical form: offsets strictly rising. (An unlisted offset has no value, so no entry can
equal what it reads as.) -/
abbrev Memory.wf (m : Memory) : Prop := (m.map Prod.fst).Pairwise (· < ·)

/-- Record one event at the end of the trace (20_memory.md rules R61 and R64). -/
def State.record (e : Event) (s : State) : State := { s with trace := s.trace ++ [e] }

/-- The byte that the outside answers next: the first of `answers`, or else a free value
(41_scan_access.md rule R121; log 2). -/
def State.nextAnswer (s : State) : Byte :=
  match s.answers with
  | b :: _ => b
  | [] => Config.freeAnswer s.draws

/-- The state after that byte is taken. -/
def State.takeAnswer (s : State) : State :=
  match s.answers with
  | _ :: rest => { s with answers := rest }
  | [] => { s with draws := s.draws + 1 }

/-- The next `n` answered bytes. -/
def State.nextAnswers : Nat → State → List Byte
  | 0, _ => []
  | n + 1, s => s.nextAnswer :: State.nextAnswers n s.takeAnswer

/-- The state after `n` answered bytes are taken. -/
def State.takeAnswers : Nat → State → State
  | 0, s => s
  | n + 1, s => State.takeAnswers n s.takeAnswer

/-- `SC.CHAINS()` (R120): the answer is one byte. -/
def scChains (s : State) : Byte × State :=
  let s1 := s.record .scChains
  (s1.nextAnswer, s1.takeAnswer)

/-- `SC.PROBE(c)` (R120): the answer is bit 0 of one byte (log 3). -/
def scProbe (c : Byte) (s : State) : Bool × State :=
  let s1 := s.record (.scProbe c)
  (s1.nextAnswer.getLsbD 0, s1.takeAnswer)

/-- `SC.WRITE_IR(c, code)` (R120). -/
def scWriteIr (c : Byte) (code : IrCode) (s : State) : State := s.record (.scWriteIr c code)

/-- `SC.READ_IR(c)` (R120): the answer is bits 5..0 of one byte (log 3). -/
def scReadIr (c : Byte) (s : State) : IrCode × State :=
  let s1 := s.record (.scReadIr c)
  (s1.nextAnswer.setWidth 6, s1.takeAnswer)

/-- `SC.WRITE_DR(c, buf, nbits, last)` (R120). -/
def scWriteDr (c : Byte) (buf : Buffer) (nbits : Nat) (last : Bool) (s : State) : State :=
  s.record (.scWriteDr c buf nbits last)

/-- `SC.READ_DR(c, nbits, tx)` (R120): the answer is `ceil(nbits/8)` bytes, the bits past `nbits`
included (R121, N5). -/
def scReadDr (c : Byte) (nbits : Nat) (tx : Buffer) (s : State) : Buffer × State :=
  let s1 := s.record (.scReadDr c nbits tx)
  (s1.nextAnswers (ceil8 nbits), s1.takeAnswers (ceil8 nbits))

/-- `SC.RUN(c, k)` (R120). -/
def scRun (c : Byte) (strobes : Nat) (s : State) : State := s.record (.scRun c strobes)

/-- `SC.RESET(c)` (R120). -/
def scReset (c : Byte) (s : State) : State := s.record (.scReset c)

/-- `GPIO.DIR(pin, dir)` (43_temperature.md rule R150). -/
def gpioDir (pin : Pin) (dir : PinDir) (s : State) : State := s.record (.gpioDir pin dir)

/-- `GPIO.WRITE(pin, level)` (R150). -/
def gpioWrite (pin : Pin) (level : Bool) (s : State) : State := s.record (.gpioWrite pin level)

/-- `GPIO.READ(pin)` (R150): the answer is bit 0 of one byte (log 3). -/
def gpioRead (pin : Pin) (s : State) : Bool × State :=
  let s1 := s.record (.gpioRead pin)
  (s1.nextAnswer.getLsbD 0, s1.takeAnswer)

/-- `append(b)` where the buffer has room (45_dispatcher.md rule R201). -/
def State.append (b : Byte) (s : State) : State :=
  { s with frame := s.frame.write s.len b, len := s.len + 1 }

/-- The buffered frame `F[0 .. S.len)`, none where a byte of it was never written. -/
def State.frameBytes? (s : State) : Option (List Byte) := s.frame.readRange? 0 s.len

/-- TAKING A FAULT, `raise Fault(code)` (60_exceptions.md rule R262): FAULT is set and the step ends;
no other state changes and nothing is emitted. -/
def raiseFault (code : FaultCode) (s : State) : Host.Outcome State Fault Refusal :=
  .next { s with fault := some code, outcome := none }

/-- Process reset (70_reset_and_hazards.md rule R290), the only return from a fault (R263): every
element at its reset value and discovery to run; the record of the outside goes on (log 6, log 10). -/
def State.processReset (s : State) : State :=
  { State.reset with host := s.host, answers := s.answers, draws := s.draws, trace := s.trace }

/-- Session reset (R292, 10_state.md rule R36). -/
def State.sessionReset (s : State) : State :=
  { s with len := 0, phase := .idle, remaining := 0, outcome := none }

/-- `return Consumed(keep)` (45_dispatcher.md rule R205). -/
def State.consume (keep : Nat) (s : State) : State :=
  { s with len := keep, ctl := .ready, outcome := some .consumed }

/-- The end of every consumed command: one response, then the rewind (R205, R206). -/
def respond (bytes : List Byte) (keep : Nat) (s : State) : Host.Outcome State Fault Refusal :=
  .next ((s.record (.emit bytes)).consume keep)

/-- Put a whole frame where the next step completes it: all of its bytes but the last in the frame
buffer of an idle, unfaulted, ready session, and the last as the next host byte (log 7). -/
def State.loadFrame (F : List Byte) (s : State) : State :=
  { s with
    frame := s.frame.writeRange 0 F.dropLast
    len := F.dropLast.length
    phase := .idle
    fault := none
    ctl := .ready
    host := (F.getLast?.map HostInput.byte).toList ++ s.host }

end Sys2Proof.Machine
end

