-- ==== Sys2Proof/Machine/Operands.lean ====
section
/-!
DEFINITION. How a command's operands name things: the device byte through the Device Table
(42_topology.md rule R142), the temperature triple (43_temperature.md rule R152). The frame's fields
themselves are assembled by the decoder (30_encoding.md rule R74).
-/

namespace Sys2Proof.Machine

/-- `RESOLVE(d)` (R142): the chain position of slot `d`, none where it faults. -/
def State.resolve (s : State) (d : Byte) : Option Byte :=
  if h : d.toNat < 5 then
    if s.pos[d.toNat] = unassigned then none else some s.pos[d.toNat]
  else none

/-- A command that resolves its device first (R143): it faults before any transaction or state write,
or goes on with the chain position. -/
def onDevice (d : Byte) (s : State) (body : Byte → Host.Outcome State Fault Refusal) :
    Host.Outcome State Fault Refusal :=
  match s.resolve d with
  | none => raiseFault .unassignedDevice s
  | some c => body c

/-- The GPIO triple that a temperature command's byte names, none for `t >= TEMP_DEVICES` (R152). -/
def tripleOf (t : Byte) : Option (Fin 4) :=
  if h : t.toNat < tempDevices then some ⟨t.toNat, h⟩ else none

/-- The pins of a triple, `TEMP_PINS[t]` (R150). -/
def csPin (t : Fin 4) : Pin := ⟨.cs, t⟩
/-- The clock pin of a triple. -/
def clkPin (t : Fin 4) : Pin := ⟨.clk, t⟩
/-- The data pin of a triple. -/
def dataPin (t : Fin 4) : Pin := ⟨.data, t⟩

end Sys2Proof.Machine
end

