-- ==== Sys2Proof/Machine/Flags.lean ====
section
/-!
DEFINITION. The sequencer's Booleans (10_state.md rule R32): the clock-capped flags, which Set clock
speed computes (46_commands.md rule R226) and Read result reads (R229).
-/

namespace Sys2Proof.Machine

/-- Whether a request is clamped: an unsigned comparison on 32 bits (R226). -/
def clockClamped (request : Word) : Bool := clockMax < request

/-- The value written for a request (R226). -/
def clockValue (request : Word) : Word := if clockClamped request then clockClamp else request

/-- The response byte for a request: 0 if clamped, 1 if accepted (R226). -/
def clockReply (request : Word) : Byte := if clockClamped request then 0x00 else 0x01

/-- `T.capped[d] <- b` (R27, R226). -/
def State.setCapped (d : Byte) (b : Bool) (s : State) : State :=
  if h : d.toNat < 5 then { s with capped := s.capped.set d.toNat b } else s

/-- `T.capped[d]`; false for a byte that names no slot. -/
def State.isCapped (s : State) (d : Byte) : Bool :=
  if h : d.toNat < 5 then s.capped[d.toNat] else false

/-- Read result's mask: bits 31:24 are 0 when the slot is clock-capped (R229). -/
def maskResult (capped : Bool) (v : Word) : Word := if capped then v &&& 0x00FFFFFF else v

end Sys2Proof.Machine
end

