-- ==== Sys2Proof/Machine/ScanAccess.lean ====
section
/-!
DEFINITION. The Scan-Chain Register Access unit (41_scan_access.md rules R123 to R127).
-/

namespace Sys2Proof.Machine

/-- The zeros shifted in by a 32-bit read (R123, R125). -/
def zeros32 : Buffer := [0x00, 0x00, 0x00, 0x00]

/-- The end of a 32-bit read: capture, chain reset, value (R123, R125). -/
def capture32 (c : Byte) (s : State) : Word × State :=
  let r := scReadDr c regBits zeros32 s
  (unpackBits r.1 regBits, scReset c r.2)

/-- `read_register(c, a)` (R123). -/
def readRegister (c addr : Byte) (s : State) : Word × State :=
  capture32 c (scWriteDr c (readPayload addr) (rdAddrBits + 1) true (scWriteIr c Config.irUser s))

/-- `write_register(c, a, v)` (R124). -/
def writeRegister (c addr : Byte) (value : Word) (s : State) : State :=
  scRun c writeStrobes
    (scWriteDr c (writePayload addr value) (regBits + wrAddrBits + 2) true
      (scWriteIr c Config.irUser s))

/-- `read_code(c, ir)` (R125). -/
def readCode (c : Byte) (ir : IrCode) (s : State) : Word × State := capture32 c (scWriteIr c ir s)

/-- `aux_shift(c, n, tx)` (R126). -/
def auxShift (c : Byte) (n : Nat) (tx : Buffer) (s : State) : Buffer × State :=
  scReadDr c n tx (scWriteIr c Config.irAux s)

/-- `ir_status(c)` (R127): the capture as a 6-bit number. -/
def irStatus (c : Byte) (s : State) : IrCode × State :=
  let r := scReadIr c s
  ((unpackBits [r.1.setWidth 8] statusBits).setWidth 6, r.2)

/-- Consecutive register writes, the first to register `a` (46_commands.md rule R228). -/
def writeWords (c : Byte) : Nat → List Word → State → State
  | _, [], s => s
  | a, w :: ws, s => writeWords c (a + 1) ws (writeRegister c (BitVec.ofNat 8 a) w s)

end Sys2Proof.Machine
end

