-- ==== Sys2Proof/Machine/Loader.lean ====
section
/-!
DEFINITION. The Bitstream Loader (44_bitstream.md): PROG, the header frame, and CHUNK, its continuation
frames (46_commands.md rule R225).
-/

namespace Sys2Proof.Machine

/-- One operation of `CFG_START_SEQ` on chain `c`, as its transport transaction (R120, R171; log 14). A
data-register write passes `last = true` (41_scan_access.md rule R128). -/
def CfgOp.event (c : Byte) : CfgOp → Event
  | .writeIr code => .scWriteIr c code
  | .writeDr whole none => .scWriteDr c whole (8 * whole.length) true
  | .writeDr whole (some (k, b)) => .scWriteDr c (whole ++ [b]) (8 * whole.length + k.val + 1) true
  | .run strobes => .scRun c strobes
  | .reset => .scReset c

/-- "issues the device's configuration-start control sequence" (R171). -/
def issueStart (c : Byte) (s : State) : State :=
  Config.cfgStartSeq.foldl (fun s op => s.record (CfgOp.event c op)) s

/-- The header's part after the status poll (R171). -/
def finishHeader (c : Byte) (length : Word) (s : State) : Host.Outcome State Fault Refusal :=
  respond [Config.ackReady] 2
    { scWriteIr c Config.irCfgIn s with remaining := length, phase := .headerReceived }

/-- One iteration of `wait_status_clear(c)` (R177): the header goes on once the status bit is clear, and
until then the sequencer stays in the poll (log 5). -/
def pollStatus (c : Byte) (length : Word) (s : State) : Host.Outcome State Fault Refusal :=
  let r := irStatus c s
  if r.1.getLsbD Config.statusPollBit.val then
    .next { r.2 with ctl := .polling c length, outcome := none }
  else finishHeader c length r.2

/-- `PROG d, L` (R171). -/
def execProg (d : Byte) (length : Word) (s : State) : Host.Outcome State Fault Refusal :=
  onDevice d s fun c => pollStatus c length (issueStart c s)

/-- The first chunk (R172), with its fault on a short length (R179). -/
def firstChunk (c : Byte) (data : List Byte) (s : State) : Host.Outcome State Fault Refusal :=
  if s.remaining.toNat < chunkBytes then raiseFault .bitstreamShort s
  else
    respond [Config.ackChunk] 2
      { scWriteDr c data (8 * chunkBytes) false s with
        remaining := s.remaining - BitVec.ofNat 32 chunkBytes, phase := .streaming }

/-- `finish(c)` (R174). -/
def finishTransfer (c : Byte) (s : State) : Host.Outcome State Fault Refusal :=
  let r := irStatus c (scRun c finalStrobes (scWriteIr c Config.irJstart s))
  respond [if Config.bitstreamOk r.1 then 0x01 else 0x00] 0 { r.2 with phase := .idle }

/-- A later chunk (R173), which finishes the transfer when nothing remains. -/
def laterChunk (c : Byte) (data : List Byte) (s : State) : Host.Outcome State Fault Refusal :=
  let k := chunkLen .streaming s.remaining
  let left := s.remaining - BitVec.ofNat 32 k
  let s1 := { scWriteDr c data (8 * k) (left == 0) s with remaining := left }
  if left = 0 then finishTransfer c s1 else respond [Config.ackChunk] 2 s1

/-- `CHUNK` (R172, R173), by the phase. Phase Idle is excluded by R204 (log 17). -/
def execChunk (d : Byte) (data : List Byte) (s : State) : Host.Outcome State Fault Refusal :=
  onDevice d s fun c =>
    match s.phase with
    | .idle => .fault .chunkOutsideTransfer
    | .headerReceived => firstChunk c data s
    | .streaming => laterChunk c data s

end Sys2Proof.Machine
end

