-- ==== Sys2Proof/Machine/Register.lean ====
section
/-!
DEFINITION. The commands over the scan-chain register access unit: IDCODE, USERCODE, SETCLK, GETCLK,
WORK, RESULT, WREG, RREG, AUXSHIFT (46_commands.md).
-/

namespace Sys2Proof.Machine

/-- `IDCODE d` (R223). -/
def execIdcode (d : Byte) (s : State) : Host.Outcome State Fault Refusal :=
  onDevice d s fun c =>
    let r := readCode c Config.irIdcode s
    respond (rb4 r.1) 0 r.2

/-- `USERCODE d` (R224). -/
def execUsercode (d : Byte) (s : State) : Host.Outcome State Fault Refusal :=
  onDevice d s fun c =>
    let r := readCode c Config.irUsercode s
    respond (rb4 r.1) 0 r.2

/-- `SETCLK d, r` (R226): the flag is written before the register write. -/
def execSetclk (d : Byte) (request : Word) (s : State) : Host.Outcome State Fault Refusal :=
  onDevice d s fun c =>
    respond [clockReply request] 0
      (writeRegister c (Config.regClockWr.setWidth 8) (clockValue request)
        (s.setCapped d (clockClamped request)))

/-- `GETCLK d` (R227). -/
def execGetclk (d : Byte) (s : State) : Host.Outcome State Fault Refusal :=
  onDevice d s fun c =>
    let r := readRegister c (Config.regClockRd.setWidth 8) s
    respond (rb4 r.1) 0 r.2

/-- `WORK d, w0, ..., w10` (R228). -/
def execWork (d : Byte) (words : List Word) (s : State) : Host.Outcome State Fault Refusal :=
  onDevice d s fun c => respond [0x01] 0 (writeWords c workBase words s)

/-- `RESULT d` (R229). -/
def execResult (d : Byte) (s : State) : Host.Outcome State Fault Refusal :=
  onDevice d s fun c =>
    let r := readRegister c (Config.regResult.setWidth 8) s
    respond (rb4 (maskResult (s.isCapped d) r.1)) 0 r.2

/-- `WREG d, a, v` (R231). -/
def execWreg (d addr : Byte) (value : Word) (s : State) : Host.Outcome State Fault Refusal :=
  onDevice d s fun c => respond [0x01] 0 (writeRegister c addr value s)

/-- `RREG d, a` (R232). -/
def execRreg (d addr : Byte) (s : State) : Host.Outcome State Fault Refusal :=
  onDevice d s fun c =>
    let r := readRegister c addr s
    respond (rb4 r.1) 0 r.2

/-- `AUXSHIFT d, n, p...` (R234): the prefix counts bytes; only whole bytes are reversed. -/
def execAuxshift (d bits : Byte) (payload : List Byte) (s : State) :
    Host.Outcome State Fault Refusal :=
  onDevice d s fun c =>
    let r := auxShift c bits.toNat payload s
    respond (BitVec.ofNat 8 (ceil8 bits.toNat) :: reverseBitOrder r.1 bits.toNat) 0 r.2

end Sys2Proof.Machine
end

