-- ==== Sys2Proof/Machine/Session.lean ====
section
/-!
DEFINITION. The commands that touch no device: PING, VERSION, DEVCOUNT (46_commands.md R220 to R222).
-/

namespace Sys2Proof.Machine

/-- `PING d` (R220). -/
def execPing (_d : Byte) (s : State) : Host.Outcome State Fault Refusal := respond [0x00] 0 s

/-- `VERSION d` (R221). -/
def execVersion (_d : Byte) (s : State) : Host.Outcome State Fault Refusal :=
  respond Config.versionString 0 s

/-- `DEVCOUNT d` (R222). -/
def execDevcount (_d : Byte) (s : State) : Host.Outcome State Fault Refusal :=
  respond [BitVec.ofNat 8 s.count.val] 0 s

end Sys2Proof.Machine
end

