-- ==== Sys2Proof/Machine/Temperature.lean ====
section
/-!
DEFINITION. The Temperature Reader (43_temperature.md) and its commands TEMP and TEMP16
(46_commands.md rules R230 and R233).
-/

namespace Sys2Proof.Machine

/-- The three directions of one triple (R151). -/
def configureTriple (s : State) (t : Fin 4) : State :=
  gpioDir (dataPin t) .input (gpioDir (clkPin t) .output (gpioDir (csPin t) .output s))

/-- `temp_configure()` (R151): all four triples, on the first use in the process. -/
def tempConfigure (s : State) : State :=
  if s.configured then s
  else { ([0, 1, 2, 3] : List (Fin 4)).foldl configureTriple s with configured := true }

/-- One clock pulse: clock high, data sampled, clock low (R152). -/
def clockPulse (t : Fin 4) (s : State) : Bool × State :=
  let r := gpioRead (dataPin t) (gpioWrite (clkPin t) true s)
  (r.1, gpioWrite (clkPin t) false r.2)

/-- `n` pulses, each shifting one bit into `v`, most significant bit first (R152). -/
def clockIn (t : Fin 4) : Nat → BitVec 16 → State → BitVec 16 × State
  | 0, v, s => (v, s)
  | n + 1, v, s =>
    let r := clockPulse t s
    clockIn t n ((v <<< 1) ||| (BitVec.ofBool r.1).setWidth 16) r.2

/-- `read_temperature(t, N)` (R152). -/
def readTemperature (t : Byte) (n : Nat) (s : State) : BitVec 16 × State :=
  match tripleOf t with
  | none => (0, s)
  | some t =>
    let r := clockIn t n 0 (gpioWrite (csPin t) false (tempConfigure s))
    (r.1, gpioWrite (csPin t) true r.2)

/-- `TEMP d` (R230). -/
def execTemp (d : Byte) (s : State) : Host.Outcome State Fault Refusal :=
  if tempDevices ≤ d.toNat then respond [0x00] 0 s
  else
    let r := readTemperature d nCoarse s
    respond [Config.coarseByte (r.1.setWidth 9)] 0 r.2

/-- `TEMP16 d` (R233): low byte first (20_memory.md rule R54). -/
def execTemp16 (d : Byte) (s : State) : Host.Outcome State Fault Refusal :=
  if tempDevices ≤ d.toNat then respond [0x00, 0x00] 0 s
  else
    let r := readTemperature d nFine s
    respond [r.1.extractLsb' 0 8, r.1.extractLsb' 8 8] 0 r.2

end Sys2Proof.Machine
end

