-- ==== Sys2Proof/Machine/Dispatch.lean ====
section
/-!
DEFINITION. `EXECUTE()` (45_dispatcher.md rule R204): each command's meaning.
-/

namespace Sys2Proof.Machine

def exec (i : Instr) (s : State) : Host.Outcome State Fault Refusal :=
  match i with
  | .ping d => Sys2Proof.Machine.execPing d s
  | .version d => Sys2Proof.Machine.execVersion d s
  | .devcount d => Sys2Proof.Machine.execDevcount d s
  | .idcode d => Sys2Proof.Machine.execIdcode d s
  | .usercode d => Sys2Proof.Machine.execUsercode d s
  | .prog d length => Sys2Proof.Machine.execProg d length s
  | .setclk d request => Sys2Proof.Machine.execSetclk d request s
  | .getclk d => Sys2Proof.Machine.execGetclk d s
  | .work d words => Sys2Proof.Machine.execWork d words s
  | .result d => Sys2Proof.Machine.execResult d s
  | .temp d => Sys2Proof.Machine.execTemp d s
  | .wreg d addr value => Sys2Proof.Machine.execWreg d addr value s
  | .rreg d addr => Sys2Proof.Machine.execRreg d addr s
  | .temp16 d => Sys2Proof.Machine.execTemp16 d s
  | .auxshift d bits payload => Sys2Proof.Machine.execAuxshift d bits payload s
  | .chunk d data => Sys2Proof.Machine.execChunk d data s

end Sys2Proof.Machine
end

