-- ==== Sys2Proof/Machine/Topology.lean ====
section
/-!
DEFINITION. Discovery (42_topology.md rule R140), the last part of process reset (R291).
-/

namespace Sys2Proof.Machine

/-- Every slot unassigned and uncapped, count 0 (R140's first lines). -/
def State.clearTable (s : State) : State :=
  { s with pos := State.reset.pos, capped := State.reset.capped, count := 0 }

/-- `T.pos[T.count] <- c ; T.count <- T.count + 1` while fewer than `MAX_LIVE` slots are filled. -/
def State.addSlot (c : Byte) (s : State) : State :=
  if h : s.count.val < 4 then
    { s with pos := s.pos.set s.count.val c, count := ⟨s.count.val + 1, by omega⟩ }
  else s

/-- Probe `k` chains from chain `c` on, stopping once `MAX_LIVE` slots are filled (R140). -/
def probeFrom : Nat → Nat → State → State
  | 0, _, s => s
  | k + 1, c, s =>
    if s.count.val = maxLive then s
    else
      let r := scProbe (BitVec.ofNat 8 c) s
      probeFrom k (c + 1) (if r.1 then r.2.addSlot (BitVec.ofNat 8 c) else r.2)

/-- `discover()` (R140), after which the sequencer waits for a byte (R290). -/
def discover (s : State) : State :=
  let r := scChains s.clearTable
  { probeFrom r.1.toNat 0 r.2 with ctl := .ready, outcome := none }

end Sys2Proof.Machine
end

