-- ==== Sys2Proof/Machine/Sequencer.lean ====
section
/-!
DEFINITION. The Frame Dispatcher's `on_byte` (45_dispatcher.md rule R200) and the sequencer's one thread
of control around it: discovery, the status poll, the wait for a byte, and the external resets.
-/

namespace Sys2Proof.Machine

/-- `on_byte` once the byte is appended: run the command the frame names, or answer `NeedMore`
(R200, R202, R203). -/
def runFrame (s : State) : Host.Outcome State Fault Refusal :=
  match s.frameBytes? with
  | none => .fault .unwrittenFrameByte
  | some F =>
    match decode s.phase s.remaining F with
    | .ok i => exec i s
    | .error _ => .next { s with outcome := some .needMore }

/-- `on_byte(b)` (R200), with the overflow fault of `append` (R201). -/
def onByte (b : Byte) (s : State) : Host.Outcome State Fault Refusal :=
  if s.len = Config.frameCap then raiseFault .frameOverflow s else runFrame (s.append b)

/-- A pause that stands first in the input is over after this step. -/
def State.dropPause (s : State) : State :=
  match s.host with
  | .pause :: rest => { s with host := rest }
  | _ => s

/-- A faulted sequencer takes no byte and issues no transaction (R262); a new connection resets only the
session (R263, R292; log 9). -/
def stepFaulted (code : FaultCode) (s : State) : Host.Outcome State Fault Refusal :=
  match s.host with
  | .connect :: rest => .next { s with host := rest }.sessionReset
  | _ => .fault (.halted code)

/-- The wait for a byte (R290): a byte is handled, a new connection resets the session, and with nothing
to take nothing happens. -/
def stepReady (s : State) : Host.Outcome State Fault Refusal :=
  match s.host with
  | .byte b :: rest => onByte b { s with host := rest }
  | .connect :: rest => .next { s with host := rest }.sessionReset
  | _ => .next { s.dropPause with outcome := none }

/-- What the sequencer does in its place in the thread of control. -/
def stepRunning (s : State) : Host.Outcome State Fault Refusal :=
  match s.ctl with
  | .discovery => .next (discover s.dropPause)
  | .polling c length => pollStatus c length s.dropPause
  | .ready => stepReady s

/-- One step: power-on comes before anything else (R263, R295), then the fault (R262), then the thread
of control. -/
def advance (s : State) : Host.Outcome State Fault Refusal :=
  match s.host with
  | .powerOn :: rest => .next { s with host := rest }.processReset
  | _ =>
    match s.fault with
    | some code => stepFaulted code s
    | none => stepRunning s

end Sys2Proof.Machine
end

