-- ==== Sys2Proof/Machine/Step.lean ====
section
/-!
DEFINITION. The step function, and where the next command's frame is placed for it.
-/

namespace Sys2Proof.Machine

/-- One step of the sequencer (45_dispatcher.md rule R200; Machine/Sequencer.lean). -/
def step (s : State) : Host.Outcome State Fault Refusal := advance s

/-- The state in which the next step receives the last byte of the table word's frame and so runs it:
what the host's byte stream would have brought about (10_state.md rule R21; log 7). -/
def State.withFetchWord (s : State) (nbits w : Nat) : State := s.loadFrame (tableFrame nbits w)

end Sys2Proof.Machine
end

