-- ==== Sys2Proof/Safety.lean ====
section
/-!
DEFINITION. The terms claims use: what a command did, runs of several steps, the invariant of the
sequencer's state, and which commands resolve their device.
-/

namespace Sys2Proof.Machine

/-- `s` after these events were recorded and `n` answers were taken, and nothing else. -/
def State.did (events : List Event) (n : Nat) (s : State) : State :=
  { s.takeAnswers n with trace := s.trace ++ events }

/-- `s` after a command that was consumed with these events (its response the last of them), `n` answers
and `keep` bytes kept, and that wrote no other state (45_dispatcher.md rules R205 and R206). -/
def State.completed (events : List Event) (n keep : Nat) (s : State) : State :=
  (s.did events n).consume keep

/-- `n` steps of the sequencer, stopping at the first that has no next state. -/
def runSteps (n : Nat) (s : State) : Host.Outcome State Fault Refusal := Host.Core.run Sys2Proof.core n s

/-- The events that are responses (`EMIT`). -/
def Event.isEmit : Event → Bool
  | .emit _ => true
  | _ => false

/-- A data-register write with `last = false`, after which the next one continues the same shift
(41_scan_access.md rule R128). -/
def Event.opensShift : Event → Bool
  | .scWriteDr _ _ _ last => !last
  | _ => false

/-- The bytes sent to the host's byte sink, in order (60_exceptions.md rule R269). -/
def sentBytes : List Event → List Byte
  | [] => []
  | .emit bs :: rest => bs ++ sentBytes rest
  | _ :: rest => sentBytes rest

/-- The transactions of consecutive register writes (R228), the first to register `a`. -/
def writeEvents (c : Byte) : Nat → List Word → List Event
  | _, [] => []
  | a, w :: ws =>
    [.scWriteIr c Config.irUser, .scWriteDr c (writePayload (BitVec.ofNat 8 a) w) 38 true, .scRun c 1] ++
      writeEvents c (a + 1) ws

/-- The transactions of `n` clock pulses (43_temperature.md rule R153). -/
def pulseEvents (t : Fin 4) (n : Nat) : List Event :=
  (List.replicate n [Event.gpioWrite (clkPin t) true, .gpioRead (dataPin t),
    .gpioWrite (clkPin t) false]).flatten

/-- The reading made from sampled bits, most significant first (R152). -/
def readingOf (v : BitVec 16) (samples : List Byte) : BitVec 16 :=
  samples.foldl (fun v b => (v <<< 1) ||| (BitVec.ofBool (b.getLsbD 0)).setWidth 16) v

/-- The transactions of the lazy configuration (R151): none once it has been done. -/
def configureEvents (configured : Bool) : List Event :=
  if configured then []
  else ([0, 1, 2, 3] : List (Fin 4)).flatMap fun t =>
    [.gpioDir (csPin t) .output, .gpioDir (clkPin t) .output, .gpioDir (dataPin t) .input]

/-- The commands that call RESOLVE, each with its device byte (42_topology.md rule R143). -/
def resolvedByte : Instr → Option Byte
  | .ping _ => none
  | .version _ => none
  | .devcount _ => none
  | .idcode d => some d
  | .usercode d => some d
  | .prog d _ => some d
  | .setclk d _ => some d
  | .getclk d => some d
  | .work d _ => some d
  | .result d => some d
  | .temp _ => none
  | .wreg d _ _ => some d
  | .rreg d _ => some d
  | .temp16 _ => none
  | .auxshift d _ _ => some d
  | .chunk d _ => some d

/-- The status bit that the poll waits on, in an answered byte (44_bitstream.md rule R177). -/
def pollBusy (answer : Byte) : Bool := (answer.setWidth 6).getLsbD Config.statusPollBit.val

/-- The result byte of a finished transfer, from the answered final status (R174). -/
def resultByte (answer : Byte) : Byte := if Config.bitstreamOk (answer.setWidth 6) then 0x01 else 0x00

/-- The transactions and the response of one non-final chunk (R172, R173). -/
def chunkEvents (c : Byte) (data : List Byte) : List Event :=
  [.scWriteDr c data 256 false, .emit [Config.ackChunk]]

/-- The transactions and the response of the final chunk (R173, R174). -/
def finalEvents (c : Byte) (data : List Byte) (status : Byte) : List Event :=
  [.scWriteDr c data (8 * data.length) true, .scWriteIr c Config.irJstart, .scRun c 16, .scReadIr c,
    .emit [resultByte status]]

/-- The Device Table's invariant (10_state.md rule R29): exactly the slots below the count are filled,
with rising positions. Slot 4 is never filled, since the count is at most 4. -/
structure TableOk (s : State) : Prop where
  filled : ∀ d : Fin 5, s.pos.get d ≠ unassigned ↔ d.val < s.count.val
  rising : ∀ i j : Fin 5, i < j → j.val < s.count.val → s.pos.get i < s.pos.get j

/-- The frame buffer's invariant (R22, R23): canonical, within its capacity, and written below the fill
length. -/
structure FrameOk (s : State) : Prop where
  canonical : Memory.wf s.frame
  bounded : ∀ e ∈ s.frame, e.1 < Config.frameCap
  length : s.len ≤ Config.frameCap
  written : ∀ i, i < s.len → (Memory.read? s.frame i).isSome

/-- The retained header of a transfer (10_state.md rule R33): byte 0 is 0x05 and byte 1 names a filled
slot. -/
def HeaderKept (s : State) : Prop :=
  2 ≤ s.len ∧ Memory.read? s.frame 0 = some 0x05 ∧
    ∃ d c, Memory.read? s.frame 1 = some d ∧ s.resolve d = some c

/-- What holds in each place of the thread of control: before discovery the table is empty and the
session fresh; in the status poll the buffer starts with the header being run. -/
def ControlOk (s : State) : Prop :=
  match s.ctl with
  | .discovery => s.count = 0 ∧ s.len = 0 ∧ s.phase = .idle ∧ s.fault = none
  | .polling c length =>
      s.phase = .idle ∧ s.fault = none ∧
        ∃ d F, s.frameBytes? = some F ∧ F.take 6 = encode (.prog d length) ∧ s.resolve d = some c
  | .ready => True

/-- The invariant of the sequencer. -/
structure Inv (s : State) : Prop where
  table : TableOk s
  frame : FrameOk s
  control : ControlOk s
  transfer : s.phase ≠ .idle → s.ctl = .ready ∧ HeaderKept s

/-- Waiting for a byte, the buffer holds no ready frame, except after the first chunk of a 32-byte
transfer (45_dispatcher.md rule R202, 44_bitstream.md rule R178). -/
def AtRest (s : State) : Prop :=
  s.fault = none → s.ctl = .ready → ∀ F, s.frameBytes? = some F →
    (∃ e, decode s.phase s.remaining F = .error e) ∨
      (s.phase = .streaming ∧ s.remaining = 0 ∧ s.len = 2)

end Sys2Proof.Machine
end

