-- ==== Sys2Proof/Certificates/Slice0/Obligations.lean ====
section
/-!
DEFINITION. The statements for the provers. Each docstring names the rules of spec/ it formalises, and the
log entry where a clause rests on a choice of the model.
-/

open Sys2Proof Sys2Proof.Machine

/-! ## The dispatcher and the step -/

/-- 45_dispatcher.md R200, R204: the byte that completes a frame makes the step run the frame's command,
on the state in which the byte has left the input and stands in the buffer. -/
def Obligations.StepRunsDecodedCommand : Prop :=
  ∀ (s : State) (b : Byte) (rest : List HostInput) (F : List Byte) (i : Instr),
    s.fault = none → s.ctl = .ready → s.host = .byte b :: rest → s.len ≠ Config.frameCap →
    (({ s with host := rest } : State).append b).frameBytes? = some F →
    decode s.phase s.remaining F = .ok i →
    step s = exec i (({ s with host := rest } : State).append b)

/-- R203: a byte that leaves the frame incomplete or unrecognized is appended and answered NeedMore, and
nothing else changes. -/
def Obligations.IncompleteFrameAnswersNeedMore : Prop :=
  ∀ (s : State) (b : Byte) (rest : List HostInput) (F : List Byte) (e : DecodeError),
    s.fault = none → s.ctl = .ready → s.host = .byte b :: rest → s.len ≠ Config.frameCap →
    (({ s with host := rest } : State).append b).frameBytes? = some F →
    decode s.phase s.remaining F = .error e →
    step s = .next { s with
      host := rest, frame := s.frame.write s.len b, len := s.len + 1, outcome := some .needMore }

/-- R201: at capacity the byte is not stored and FRAME_OVERFLOW is taken; below it the byte goes to
offset `S.len`, every other offset keeps its byte, and `S.len` grows by one. -/
def Obligations.AppendStoresOneByteOrOverflows : Prop :=
  ∀ (s : State) (b : Byte),
    (s.len = Config.frameCap →
      onByte b s = .next { s with fault := some .frameOverflow, outcome := none }) ∧
    (s.len ≠ Config.frameCap →
      onByte b s = runFrame (s.append b) ∧ (s.append b).len = s.len + 1 ∧
      Memory.read? (s.append b).frame s.len = some b ∧
      ∀ a, a ≠ s.len → Memory.read? (s.append b).frame a = Memory.read? s.frame a)

/-- R201, R261: only a buffer whose byte 0 is an unrecognized opcode can overflow. -/
def Obligations.OnlyUnrecognizedOpcodeOverflows : Prop :=
  ∀ s t : State, Inv s → AtRest s → s.fault = none → step s = .next t →
    t.fault = some .frameOverflow → ∃ op, Memory.read? s.frame 0 = some op ∧ 0x0F ≤ op.toNat

/-- R76, R207: after an unrecognized opcode every byte up to the capacity is answered NeedMore with no
event, and the next byte takes FRAME_OVERFLOW, again with no event. -/
def Obligations.UnrecognizedOpcodeFillsThenOverflows : Prop :=
  ∀ (s : State) (op extra : Byte) (bytes : List Byte) (rest : List HostInput),
    s.fault = none → s.ctl = .ready → s.len = 0 → 0x0F ≤ op.toNat →
    bytes.length + 1 = Config.frameCap →
    s.host = (op :: bytes).map HostInput.byte ++ .byte extra :: rest →
    (∀ k, 1 ≤ k → k ≤ Config.frameCap → ∃ t, runSteps k s = .next t ∧ t.outcome = some .needMore ∧
      t.len = k ∧ t.trace = s.trace ∧ t.fault = none) ∧
    ∃ u, runSteps (Config.frameCap + 1) s = .next u ∧ u.fault = some .frameOverflow ∧
      u.len = Config.frameCap ∧ u.trace = s.trace

/-- R202: between bytes no buffered frame is ready, so a command runs exactly when its frame reaches the
minimum length, except in the 32-byte transfer of R178. -/
def Obligations.CommandRunsAtMinimumLength : Prop :=
  ∀ (s : State) (b : Byte) (F : List Byte) (i : Instr),
    Inv s → AtRest s → s.fault = none → s.ctl = .ready → (s.append b).frameBytes? = some F →
    decode s.phase s.remaining F = .ok i →
    minLen s.phase s.remaining F = some F.length ∨
      (s.phase = .streaming ∧ s.remaining = 0 ∧ F.length = 3 ∧
        minLen s.phase s.remaining F = some 2)

/-- R209: a Ping frame fed byte by byte gives NeedMore, then Consumed with response [0]. -/
def Obligations.PingFedByteByByte : Prop :=
  ∀ (s : State) (d : Byte) (rest : List HostInput),
    s.fault = none → s.ctl = .ready → s.len = 0 →
    s.host = .byte 0x00 :: .byte d :: rest →
    (∃ t, runSteps 1 s = .next t ∧ t.outcome = some .needMore ∧ t.len = 1 ∧ t.trace = s.trace) ∧
    ∃ u, runSteps 2 s = .next u ∧ u.outcome = some .consumed ∧ u.len = 0 ∧
      u.trace = s.trace ++ [.emit [0x00]]

/-- The model's choice (log 7): the step after `withFetchWord` runs the command that the table word
decodes to, on the state whose buffer is that word's frame and which is otherwise `s` made ready. -/
def Obligations.PlacedTableWordIsRunNext : Prop :=
  ∀ (s : State) (nbits w : Nat) (i : Instr), decodeTableWord nbits w = some i →
    ∃ s1 : State, step (s.withFetchWord nbits w) = exec i s1 ∧
      s1.frameBytes? = some (tableFrame nbits w) ∧ s1.phase = .idle ∧ s1.remaining = s.remaining ∧
      s1.pos = s.pos ∧ s1.capped = s.capped ∧ s1.count = s.count ∧ s1.configured = s.configured ∧
      s1.host = s.host ∧ s1.answers = s.answers ∧ s1.draws = s.draws ∧ s1.trace = s.trace

/-! ## Encoding -/

/-- R72, R75: every well-formed command that a phase admits is what its own frame decodes to. -/
def Obligations.DecodeOfEncodeIsCommand : Prop :=
  ∀ (ph : Phase) (rem : Word) (i : Instr), i.wf = true → i.fits ph rem →
    decode ph rem (encode i) = .ok i

/-- R72, R75, R202: the decoder accepts exactly the buffers that have reached their minimum length, and
what it accepts is a well-formed command that the phase admits, whose frame is the buffered bytes up to
that length. -/
def Obligations.EncodeOfDecodedCommandIsFrame : Prop :=
  ∀ (ph : Phase) (rem : Word) (F : List Byte),
    ((∃ i, decode ph rem F = .ok i) ↔ ∃ need, minLen ph rem F = some need ∧ need ≤ F.length) ∧
    ∀ i, decode ph rem F = .ok i → i.wf = true ∧ i.fits ph rem ∧
      ∃ need, minLen ph rem F = some need ∧ encode i = F.take need

/-- 30_encoding.md R72, R82 and 95_test_vectors.md: frames written out from the spec. -/
def Obligations.SampleFramesDecode : Prop :=
  decode .idle 0 [0x0B, 0x00, 0x01, 0x78, 0x56, 0x34, 0x12] = .ok (.wreg 0 1 0x12345678) ∧
  decode .idle 0 [0x06, 0x00, 0xFF, 0x00, 0x00, 0x00] = .ok (.setclk 0 255) ∧
  decode .idle 0 [0x05, 0x00, 0x40, 0x00, 0x00, 0x00] = .ok (.prog 0 64) ∧
  decode .idle 0 [0x0C, 0x03, 0x01] = .ok (.rreg 3 1) ∧
  decode .idle 0 [0x0E, 0x00, 0x0C, 0xAB, 0x0C] = .ok (.auxshift 0 12 [0xAB, 0x0C]) ∧
  decode .streaming 2 [0x05, 0x01, 0xAA, 0xBB] = .ok (.chunk 1 [0xAA, 0xBB]) ∧
  decode .idle 0 [0x0F, 0x00] = .error (.unrecognized 0x0F)

/-! ## The bit codec -/

/-- R101: `pack_bits` writes `ceil(width/8)` bytes, value bit `i` at vector index `i` in the transmit
representation, everything else 0. -/
def Obligations.PackBitsPlacesEachBit : Prop :=
  ∀ (v : Word) (w : Nat), w ≤ 32 → (packBits v w).length = ceil8 w ∧
    ∀ j, vgetT (packBits v w) j = (decide (j < w) && v.getLsbD j)

/-- R102: `unpack_bits` takes value bit `i` from vector index `i` in the register representation; for
width 32 that is the little-endian reading. -/
def Obligations.UnpackBitsTakesEachBit : Prop :=
  (∀ (buf : Buffer) (w : Nat), w ≤ 32 →
    ∀ i, (unpackBits buf w).getLsbD i = (decide (i < w) && vgetR buf i)) ∧
  ∀ b0 b1 b2 b3 : Byte, (unpackBits [b0, b1, b2, b3] 32).toNat =
    b0.toNat + 256 * b1.toNat + 65536 * b2.toNat + 16777216 * b3.toNat

/-- R103: unpacking a packed value reverses the bits of each byte in place, and gives the value back
exactly when every byte is a bit palindrome. -/
def Obligations.UnpackOfPackReversesEachByte : Prop :=
  ∀ v : Word,
    (∀ k m, k < 4 → m < 8 →
      (unpackBits (packBits v 32) 32).getLsbD (8 * k + m) = v.getLsbD (8 * k + (7 - m))) ∧
    (unpackBits (packBits v 32) 32 = v ↔
      ∀ k, k < 4 → rev8 (v.extractLsb' (8 * k) 8) = v.extractLsb' (8 * k) 8)

/-- R104: the whole bytes below the bit count are reversed, and every later byte stays. -/
def Obligations.ReverseBitOrderReversesWholeBytes : Prop :=
  ∀ (buf : Buffer) (n : Nat), n / 8 ≤ buf.length →
    (reverseBitOrder buf n).length = buf.length ∧
    ∀ k, (k < n / 8 → ∀ m, m < 8 →
        ((reverseBitOrder buf n).getD k 0).getLsbD m = (buf.getD k 0).getLsbD (7 - m)) ∧
      (n / 8 ≤ k → (reverseBitOrder buf n).getD k 0 = buf.getD k 0)

/-- R105: reversal twice with the same bit count gives the buffer back. -/
def Obligations.ReverseBitOrderIsInvolution : Prop :=
  ∀ (buf : Buffer) (n : Nat), reverseBitOrder (reverseBitOrder buf n) n = buf

/-- R106: a 4-byte response is the transmit representation of its value: both put `v[8k+m]` at byte `k`
bit `7-m`. -/
def Obligations.ResponseIsTransmitRepresentation : Prop :=
  ∀ v : Word, reverseBitOrder (le4 v) 32 = packBits v 32 ∧
    ∀ k m, k < 4 → m < 8 → ((packBits v 32).getD k 0).getLsbD (7 - m) = v.getLsbD (8 * k + m)

/-- R108: after `apply_odd_parity` the XOR of vector indices 0 .. n is 0, whatever the payload. -/
def Obligations.ParityMakesTotalEven : Prop :=
  ∀ (buf : Buffer) (n : Nat), n / 8 < buf.length → vgetT buf n = false →
    parityT (applyOddParity buf n) (n + 1) = false ∧
    ∀ j, j ≠ n → vgetT (applyOddParity buf n) j = vgetT buf j

/-- R79: the register-read payload's one byte. -/
def Obligations.ReadPayloadLayout : Prop :=
  ∀ a : Byte, (readPayload a).length = 1 ∧
    (∀ i, i < 5 → vgetT (readPayload a) i = a.getLsbD i) ∧
    vgetT (readPayload a) 5 =
      (a.getLsbD 0 ^^ a.getLsbD 1 ^^ a.getLsbD 2 ^^ a.getLsbD 3 ^^ a.getLsbD 4) ∧
    vgetT (readPayload a) 6 = false ∧ vgetT (readPayload a) 7 = false

/-- R80: the register-write payload's five bytes: value, address, write flag, parity, two zeros. -/
def Obligations.WritePayloadLayout : Prop :=
  ∀ (a : Byte) (v : Word), (writePayload a v).length = 5 ∧
    (∀ i, i < 32 → vgetT (writePayload a v) i = v.getLsbD i) ∧
    (∀ i, i < 4 → vgetT (writePayload a v) (32 + i) = a.getLsbD i) ∧
    vgetT (writePayload a v) 36 = true ∧
    vgetT (writePayload a v) 37 = parityT (writePayload a v) 37 ∧
    vgetT (writePayload a v) 38 = false ∧ vgetT (writePayload a v) 39 = false

/-! ## Commands -/

/-- R220, R221, R222: the commands that touch no device, for every device byte: one response and the
rewind. VERSION_STRING is a non-empty list of ASCII bytes (R7). -/
def Obligations.SessionCommandsComplete : Prop :=
  Config.versionString ≠ [] ∧ (∀ b ∈ Config.versionString, b.toNat < 128) ∧
  ∀ (s : State) (d : Byte),
    exec (.ping d) s = .next (s.completed [.emit [0x00]] 0 0) ∧
    exec (.version d) s = .next (s.completed [.emit Config.versionString] 0 0) ∧
    exec (.devcount d) s = .next (s.completed [.emit [BitVec.ofNat 8 s.count.val]] 0 0)

/-- R223, R224, R125: the code reads on a filled slot: three transactions, and the response is the four
captured bytes each bit-reversed. (A capture is the next answered bytes: the model's choice, log 3.) -/
def Obligations.CodeReadsComplete : Prop :=
  ∀ (s : State) (d c : Byte), s.resolve d = some c →
    exec (.idcode d) s = .next (s.completed
      [.scWriteIr c Config.irIdcode, .scReadDr c 32 [0, 0, 0, 0], .scReset c,
        .emit ((s.nextAnswers 4).map rev8)] 4 0) ∧
    exec (.usercode d) s = .next (s.completed
      [.scWriteIr c Config.irUsercode, .scReadDr c 32 [0, 0, 0, 0], .scReset c,
        .emit ((s.nextAnswers 4).map rev8)] 4 0)

/-- R227, R232, R123: the register reads on a filled slot (captures as log 3 answers them). -/
def Obligations.RegisterReadsComplete : Prop :=
  ∀ (s : State) (d c a : Byte), s.resolve d = some c →
    exec (.rreg d a) s = .next (s.completed
      [.scWriteIr c Config.irUser, .scWriteDr c (readPayload a) 6 true, .scReadDr c 32 [0, 0, 0, 0],
        .scReset c, .emit ((s.nextAnswers 4).map rev8)] 4 0) ∧
    exec (.getclk d) s = .next (s.completed
      [.scWriteIr c Config.irUser, .scWriteDr c (readPayload (Config.regClockRd.setWidth 8)) 6 true,
        .scReadDr c 32 [0, 0, 0, 0], .scReset c, .emit ((s.nextAnswers 4).map rev8)] 4 0)

/-- R229: Read result, the last response byte forced to 0 when the slot is clock-capped (captures as log 3
answers them). -/
def Obligations.ResultReadCompletes : Prop :=
  ∀ (s : State) (d c : Byte) (h : d.toNat < 5), s.resolve d = some c →
    exec (.result d) s = .next (s.completed
      [.scWriteIr c Config.irUser, .scWriteDr c (readPayload (Config.regResult.setWidth 8)) 6 true,
        .scReadDr c 32 [0, 0, 0, 0], .scReset c,
        .emit (if s.capped[d.toNat] then ((s.nextAnswers 4).take 3).map rev8 ++ [0x00]
          else (s.nextAnswers 4).map rev8)] 4 0)

/-- R231, R124: Write register on a filled slot. -/
def Obligations.RegisterWriteCompletes : Prop :=
  ∀ (s : State) (d c a : Byte) (v : Word), s.resolve d = some c →
    exec (.wreg d a v) s = .next (s.completed
      [.scWriteIr c Config.irUser, .scWriteDr c (writePayload a v) 38 true, .scRun c 1,
        .emit [0x01]] 0 0)

/-- R226: Set clock speed on a filled slot: above 250 the value 50 is written, the slot is marked capped
and the response is 0; otherwise the request is written, the mark is cleared and the response is 1. No
other slot's mark changes. -/
def Obligations.ClockRequestCompletes : Prop :=
  ∀ (s : State) (d c : Byte) (r : Word) (h : d.toNat < 5), s.resolve d = some c →
    (250 < r.toNat → exec (.setclk d r) s = .next { s.completed
      [.scWriteIr c Config.irUser, .scWriteDr c (writePayload (Config.regClockWr.setWidth 8) 50) 38 true,
        .scRun c 1, .emit [0x00]] 0 0 with capped := s.capped.set d.toNat true }) ∧
    (r.toNat ≤ 250 → exec (.setclk d r) s = .next { s.completed
      [.scWriteIr c Config.irUser, .scWriteDr c (writePayload (Config.regClockWr.setWidth 8) r) 38 true,
        .scRun c 1, .emit [0x01]] 0 0 with capped := s.capped.set d.toNat false })

/-- R228: Submit work on a filled slot: word `j` goes to register `1 + j`, in increasing order, each by
one register write, then the response 1. -/
def Obligations.WorkSubmissionCompletes : Prop :=
  ∀ (s : State) (d c : Byte) (ws : List Word), ws.length = 11 → s.resolve d = some c →
    exec (.work d ws) s = .next (s.completed
      (((List.range 11).flatMap fun j =>
          [.scWriteIr c Config.irUser,
            .scWriteDr c (writePayload (BitVec.ofNat 8 (1 + j)) (ws.getD j 0)) 38 true, .scRun c 1]) ++
        [.emit [0x01]]) 0 0)

/-- R230, R233, R151 to R153: a temperature read of a triple 0..3: the configuration on the first use, the
GPIO sequence, and the response made from the samples. (A sample is bit 0 of an answered byte: the model's
choice, log 3; the pins are named by role and triple, log 13.) -/
def Obligations.TemperatureReadsComplete : Prop :=
  ∀ (s : State) (d : Byte) (h : d.toNat < 4),
    exec (.temp d) s = .next { s.completed
      (configureEvents s.configured ++ [.gpioWrite (csPin ⟨d.toNat, h⟩) false] ++
        pulseEvents ⟨d.toNat, h⟩ 9 ++ [.gpioWrite (csPin ⟨d.toNat, h⟩) true,
        .emit [Config.coarseByte ((readingOf 0 (s.nextAnswers 9)).setWidth 9)]]) 9 0
      with configured := true } ∧
    exec (.temp16 d) s = .next { s.completed
      (configureEvents s.configured ++ [.gpioWrite (csPin ⟨d.toNat, h⟩) false] ++
        pulseEvents ⟨d.toNat, h⟩ 16 ++ [.gpioWrite (csPin ⟨d.toNat, h⟩) true,
        .emit [(readingOf 0 (s.nextAnswers 16)).extractLsb' 0 8,
          (readingOf 0 (s.nextAnswers 16)).extractLsb' 8 8]]) 16 0
      with configured := true }

/-- R152: the first sampled bit is bit N-1 of the reading, the last is bit 0, and the bits from N up
are 0. -/
def Obligations.TemperatureIsMostSignificantBitFirst : Prop :=
  ∀ samples : List Byte, samples.length ≤ 16 → ∀ j,
    (readingOf 0 samples).getLsbD j =
      (decide (j < samples.length) && (samples.getD (samples.length - 1 - j) 0).getLsbD 0)

/-- R154: a temperature command whose index is 4 or more answers zero, with no GPIO event and without
configuring the pins. -/
def Obligations.TemperatureOfNoTripleIsZero : Prop :=
  ∀ (s : State) (d : Byte), 4 ≤ d.toNat →
    exec (.temp d) s = .next (s.completed [.emit [0x00]] 0 0) ∧
    exec (.temp16 d) s = .next (s.completed [.emit [0x00, 0x00]] 0 0)

/-- R234, R126: the auxiliary shift on a filled slot: the payload goes out as received, and the response
is the byte count and the capture with its whole bytes reversed (captures as log 3 answers them). -/
def Obligations.AuxiliaryShiftCompletes : Prop :=
  ∀ (s : State) (d c n : Byte) (p : List Byte), s.resolve d = some c →
    exec (.auxshift d n p) s = .next (s.completed
      [.scWriteIr c Config.irAux, .scReadDr c n.toNat p,
        .emit (BitVec.ofNat 8 (ceil8 n.toNat) ::
          (((s.nextAnswers (ceil8 n.toNat)).take (n.toNat / 8)).map rev8 ++
            (s.nextAnswers (ceil8 n.toNat)).drop (n.toNat / 8)))] (ceil8 n.toNat) 0)

/-! ## The bitstream loader -/

/-- R171, R177: the header on a filled slot, when the first polled status bit is clear, completes in its
step: start sequence, one poll, data-load instruction, ACK_READY, header kept. While the bit is set the
header has not returned, and only the start sequence and one capture have happened. The model's choices: the
poll goes on with the next step (log 5); the start sequence takes no answer, so the first poll reads the
next one (log 14, deduced and unsafe); a capture is the low bits of an answered byte (log 3). -/
def Obligations.HeaderPollsTheStatusBit : Prop :=
  ∀ (s : State) (d c : Byte) (L : Word), s.resolve d = some c →
    (pollBusy s.nextAnswer = false → exec (.prog d L) s = .next { s.completed
      (Config.cfgStartSeq.map (CfgOp.event c) ++
        [.scReadIr c, .scWriteIr c Config.irCfgIn, .emit [Config.ackReady]]) 1 2
      with remaining := L, phase := .headerReceived }) ∧
    (pollBusy s.nextAnswer = true → exec (.prog d L) s = .next { s.did
      (Config.cfgStartSeq.map (CfgOp.event c) ++ [.scReadIr c]) 1
      with ctl := .polling c L, outcome := none })

/-- R177 with log 5: from the poll, `n` busy answers and then a clear one complete the header after
`n + 1` captures. -/
def Obligations.PollEndsWithFirstClearAnswer : Prop :=
  ∀ (s : State) (c : Byte) (L : Word) (n : Nat),
    s.fault = none → s.ctl = .polling c L → s.host.head? ≠ some .powerOn → s.host.head? ≠ some .pause →
    (∀ k, k < n → pollBusy ((s.nextAnswers (n + 1)).getD k 0) = true) →
    pollBusy ((s.nextAnswers (n + 1)).getD n 0) = false →
    runSteps (n + 1) s = .next { s.completed
      (List.replicate (n + 1) (.scReadIr c) ++ [.scWriteIr c Config.irCfgIn, .emit [Config.ackReady]])
      (n + 1) 2
      with remaining := L, phase := .headerReceived }

/-- R264, R295 with log 5: while every answer is busy the poll goes on: no byte is taken, nothing is
emitted, and each step is one capture. -/
def Obligations.PollHangsWhileBusy : Prop :=
  ∀ (s : State) (c : Byte) (L : Word) (n : Nat),
    s.fault = none → s.ctl = .polling c L → s.host.head? ≠ some .powerOn → s.host.head? ≠ some .pause →
    (∀ k, k ≤ n → pollBusy ((s.nextAnswers (n + 1)).getD k 0) = true) →
    runSteps (n + 1) s = .next { s.did (List.replicate (n + 1) (.scReadIr c)) (n + 1)
      with outcome := none }

/-- R172: the first chunk: one write of 256 bits, not the last, the count down by 32, ACK_CHUNK. -/
def Obligations.FirstChunkCompletes : Prop :=
  ∀ (s : State) (d c : Byte) (data : List Byte),
    s.resolve d = some c → s.phase = .headerReceived → 32 ≤ s.remaining.toNat →
    exec (.chunk d data) s = .next { s.completed (chunkEvents c data) 0 2
      with remaining := s.remaining - 32, phase := .streaming }

/-- R179: the first chunk of a transfer shorter than 32 bytes takes BITSTREAM_SHORT before any
transaction. -/
def Obligations.ShortTransferFaults : Prop :=
  ∀ (s : State) (d c : Byte) (data : List Byte),
    s.resolve d = some c → s.phase = .headerReceived → s.remaining.toNat < 32 →
    exec (.chunk d data) s = .next { s with fault := some .bitstreamShort, outcome := none }

/-- R173: a later chunk that leaves something is 32 bytes, not the last, and is acknowledged. -/
def Obligations.LaterChunkCompletes : Prop :=
  ∀ (s : State) (d c : Byte) (data : List Byte),
    s.resolve d = some c → s.phase = .streaming → 32 < s.remaining.toNat →
    exec (.chunk d data) s = .next { s.completed (chunkEvents c data) 0 2
      with remaining := s.remaining - 32 }

/-- R173, R174: the chunk that leaves nothing is the last: start-operation instruction, 16 strobes, the
status capture, the result byte, and the loader is Idle with an empty buffer. That this chunk waits for
nothing and always completes is the model's reading (log 18, deduced and unsafe, against item 5 of R265); the
status is the low bits of an answered byte (log 3). -/
def Obligations.FinalChunkCompletes : Prop :=
  ∀ (s : State) (d c : Byte) (data : List Byte),
    s.resolve d = some c → s.phase = .streaming → s.remaining.toNat ≤ 32 →
    data.length = s.remaining.toNat →
    exec (.chunk d data) s = .next { s.completed (finalEvents c data s.nextAnswer) 1 0
      with remaining := 0, phase := .idle }

/-- R178: after the only chunk of a 32-byte transfer, the next byte, whatever it is, runs the empty final
chunk and is discarded. That the final chunk completes in its step is the model's reading (log 18, deduced and
unsafe: R264 and R305 against item 5 of R265); the status is the low bits of an answered byte (log 3). -/
def Obligations.ThirtyTwoByteTransferSwallowsOneByte : Prop :=
  ∀ (s : State) (d c b : Byte) (rest : List HostInput),
    s.fault = none → s.ctl = .ready → s.phase = .streaming → s.remaining = 0 →
    s.frameBytes? = some [0x05, d] → s.resolve d = some c → s.host = .byte b :: rest →
    ∃ t, step s = .next t ∧ t.len = 0 ∧ t.phase = .idle ∧ t.remaining = 0 ∧ t.host = rest ∧
      t.outcome = some .consumed ∧ t.fault = none ∧ t.trace = s.trace ++ finalEvents c [] s.nextAnswer

/-- R204 excludes a chunk in phase Idle; the model's choice (log 17) is that executing one stops. -/
def Obligations.ChunkOutsideTransferStops : Prop :=
  ∀ (s : State) (d c : Byte) (data : List Byte), s.resolve d = some c → s.phase = .idle →
    exec (.chunk d data) s = .fault .chunkOutsideTransfer

/-- R83, R171 to R176, R181: an image of more than 32 bytes, sent as the bytes of PROGRAM, reaches the
device whole and in order: the header, every chunk but the last with `last` false and its own
acknowledgement, the last chunk with `last` true, the result; and the loader is Idle again. It rests on the
model's choices: a poll is one step and the first is in the header's (log 5); the start sequence takes no
answer (log 14, deduced and unsafe); the final chunk waits for nothing (log 18, deduced and unsafe); a status
is the low bits of an answered byte (log 3). An image of exactly 32 bytes is left to FirstChunkCompletes and
ThirtyTwoByteTransferSwallowsOneByte, a busy first status to HeaderPollsTheStatusBit,
PollEndsWithFirstClearAnswer and PollHangsWhileBusy. -/
def Obligations.WholeImageReachesDevice : Prop :=
  ∀ (s : State) (d c extra : Byte) (image : List Byte) (rest : List HostInput),
    s.fault = none → s.ctl = .ready → s.phase = .idle → s.len = 0 → s.resolve d = some c →
    32 < image.length → image.length < 2 ^ 32 →
    s.host = (programWire d image extra).map HostInput.byte ++ rest →
    pollBusy s.nextAnswer = false →
    ∃ (t : State) (chunks : List (List Byte)) (last : List Byte),
      runSteps (6 + image.length) s = .next t ∧
      chunks.flatten ++ last = image ∧ (∀ ch ∈ chunks, ch.length = 32) ∧
      1 ≤ last.length ∧ last.length ≤ 32 ∧
      t.trace = s.trace ++ Config.cfgStartSeq.map (CfgOp.event c) ++
        [.scReadIr c, .scWriteIr c Config.irCfgIn, .emit [Config.ackReady]] ++
        chunks.flatMap (chunkEvents c) ++ finalEvents c last ((s.nextAnswers 2).getD 1 0) ∧
      t.phase = .idle ∧ t.remaining = 0 ∧ t.len = 0 ∧ t.fault = none ∧ t.ctl = .ready ∧
      t.host = rest ∧ t.pos = s.pos ∧ t.capped = s.capped ∧ t.count = s.count

/-! ## Faults and resets -/

/-- From R142, R143 and R262: RESOLVE gives the slot's position, and faults exactly for a byte of 5 or more
or an unassigned slot (that slot 4 is always one is DeviceTableStaysOrdered); a command that resolves such a
byte takes UNASSIGNED_DEVICE and does nothing else. -/
def Obligations.UnassignedDeviceFaultsFirst : Prop :=
  (∀ (s : State) (d : Byte) (h : d.toNat < 5), s.pos[d.toNat] ≠ unassigned →
    s.resolve d = some s.pos[d.toNat]) ∧
  (∀ (s : State) (d : Byte),
    s.resolve d = none ↔ ∀ h : d.toNat < 5, s.pos[d.toNat] = unassigned) ∧
  ∀ (s : State) (i : Instr) (d : Byte), resolvedByte i = some d → s.resolve d = none →
    exec i s = .next { s with fault := some .unassignedDevice, outcome := none }

/-- R261, R265: which command takes which fault, and when; no command takes FRAME_OVERFLOW. -/
def Obligations.FaultCauses : Prop :=
  ∀ (s t : State) (i : Instr), s.fault = none → exec i s = .next t →
    (t.fault = some .unassignedDevice ↔ ∃ d, resolvedByte i = some d ∧ s.resolve d = none) ∧
    (t.fault = some .bitstreamShort ↔ ∃ d data c, i = .chunk d data ∧ s.resolve d = some c ∧
      s.phase = .headerReceived ∧ s.remaining.toNat < 32) ∧
    t.fault ≠ some .frameOverflow

/-- R262: a step that takes a fault changes nothing but FAULT beside the byte it was given: an overflowing
byte is not stored, any other is in the buffer. -/
def Obligations.FaultEntryIsPrecise : Prop :=
  ∀ (s t : State) (code : FaultCode), s.fault = none → step s = .next t → t.fault = some code →
    ∃ b rest, s.host = .byte b :: rest ∧ s.ctl = .ready ∧
      ((code = .frameOverflow ∧ s.len = Config.frameCap ∧
          t = { s with host := rest, fault := some code, outcome := none }) ∨
        (code ≠ .frameOverflow ∧
          t = { ({ s with host := rest } : State).append b with fault := some code, outcome := none }))

/-- R262, R208: a faulted sequencer given a byte, a pause or nothing has no next state. -/
def Obligations.FaultedSequencerHasNoSuccessor : Prop :=
  ∀ (s : State) (code : FaultCode), s.fault = some code →
    s.host.head? ≠ some .connect → s.host.head? ≠ some .powerOn → step s = .fault (.halted code)

/-- R263: a step out of a faulted state that clears FAULT is a process reset; the only other one is a
session reset, which keeps it (log 9). -/
def Obligations.OnlyProcessResetClearsFault : Prop :=
  ∀ (s t : State) (code : FaultCode), s.fault = some code → step s = .next t →
    (s.host.head? = some .powerOn ∧ t.fault = none) ∨
      (s.host.head? = some .connect ∧ t.fault = some code ∧ t.trace = s.trace)

/-- R290 steps 1 to 3, whatever the state, a fault or a hang included; discovery is then to run (log 6). -/
def Obligations.ProcessResetSetsEveryElement : Prop :=
  ∀ (s : State) (rest : List HostInput), s.host = .powerOn :: rest →
    ∃ t, step s = .next t ∧ t.fault = none ∧ t.configured = false ∧ t.len = 0 ∧ t.phase = .idle ∧
      t.remaining = 0 ∧ (∀ k : Fin 5, t.pos.get k = 0xFF ∧ t.capped.get k = false) ∧ t.count = 0 ∧
      t.ctl = .discovery ∧ t.trace = s.trace ∧ t.host = rest

/-- R292: a new connection resets the session's fields and nothing else, in a faulted state too (log 9). -/
def Obligations.SessionResetKeepsProcessState : Prop :=
  ∀ (s : State) (rest : List HostInput), s.host = .connect :: rest →
    (s.fault ≠ none ∨ s.ctl = .ready) →
    step s = .next { s with
      host := rest, len := 0, phase := .idle, remaining := 0, outcome := none }

/-- R140, R141, R291: the first step after process reset fills the slots with the live chains in
increasing order, at most four, clears the marks, probes no chain after the fourth live one, and leaves
the sequencer ready. (That discovery is a step of its own, and that its answers are read from bytes, is the
model's choice: logs 6 and 3.) -/
def Obligations.DiscoveryFillsSlotsInOrder : Prop :=
  ∀ s : State, s.fault = none → s.ctl = .discovery → s.host.head? ≠ some .powerOn →
    let n := s.nextAnswer.toNat
    let live := (List.range n).filter fun c => ((s.nextAnswers (n + 1)).getD (c + 1) 0).getLsbD 0
    let probed := (List.range n).filter fun c => decide ((live.filter (· < c)).length < 4)
    ∃ t, step s = .next t ∧ t.count.val = min 4 live.length ∧
      (∀ k : Fin 5, t.pos.get k =
        if k.val < 4 then (live[k.val]?.map (BitVec.ofNat 8)).getD unassigned else unassigned) ∧
      (∀ k : Fin 5, t.capped.get k = false) ∧
      t.trace = s.trace ++ [.scChains] ++ probed.map (fun c => .scProbe (BitVec.ofNat 8 c)) ∧
      t.ctl = .ready ∧ t.fault = none ∧ t.len = s.len ∧ t.phase = s.phase ∧ t.remaining = s.remaining ∧
      t.frame = s.frame ∧ t.configured = s.configured

/-! ## Whole-machine rules and invariants -/

/-- State.reset meets the invariants (the values of R290; log 6 for the place of discovery). -/
def Obligations.ResetMeetsInvariants : Prop := Inv State.reset ∧ AtRest State.reset

/-- R29, R33, R22, R23: every step keeps the invariant: the Device Table's shape, the frame buffer's
canonical form and bounds, the retained header of a transfer, the header under a status poll. -/
def Obligations.StepKeepsInv : Prop := ∀ s t : State, Inv s → step s = .next t → Inv t

/-- R202: every step leaves no ready frame in the buffer (but for R178). -/
def Obligations.StepKeepsAtRest : Prop :=
  ∀ s t : State, Inv s → AtRest s → step s = .next t → AtRest t

/-- R29: the Device Table after any step from a state of the invariant: slot 4 is never filled, the filled
slots are exactly those below the count, and their positions are strictly increasing, so distinct. -/
def Obligations.DeviceTableStaysOrdered : Prop :=
  ∀ s t : State, Inv s → step s = .next t →
    t.pos.get 4 = 0xFF ∧ (∀ k : Fin 5, t.pos.get k ≠ 0xFF ↔ k.val < t.count.val) ∧
    (∀ i j : Fin 5, i < j → j.val < t.count.val → (t.pos.get i).toNat < (t.pos.get j).toNat) ∧
    ∀ i j : Fin 5, i.val < t.count.val → j.val < t.count.val → t.pos.get i = t.pos.get j → i = j

/-- R144, R291: after discovery only process reset changes a slot's position or the count. -/
def Obligations.TopologyFixedAfterDiscovery : Prop :=
  ∀ s t : State, step s = .next t → s.ctl ≠ .discovery → s.host.head? ≠ some .powerOn →
    t.pos = s.pos ∧ t.count = s.count

/-- The frame of every command: no byte of the frame buffer changes, nor the Device Table's positions and
count, nor the input; a clock-capped mark changes only by SETCLK, and only its own slot's; G.configured
only by the temperature commands; the transfer's phase and count only by PROG and CHUNK; FAULT only to
UNASSIGNED_DEVICE, or by CHUNK to BITSTREAM_SHORT; the fill length only to 0, or by PROG and CHUNK to 2; and
the record of events only grows. -/
def Obligations.CommandsKeepTheirFrame : Prop :=
  ∀ (s t : State) (i : Instr), exec i s = .next t →
    (∀ a, Memory.read? t.frame a = Memory.read? s.frame a) ∧ t.pos = s.pos ∧ t.count = s.count ∧
    t.host = s.host ∧ (∃ evs, t.trace = s.trace ++ evs) ∧
    (∀ k : Fin 5, t.capped.get k = s.capped.get k ∨ ∃ d r, i = .setclk d r ∧ d.toNat = k.val) ∧
    ((∃ d, i = .temp d ∨ i = .temp16 d) ∨ t.configured = s.configured) ∧
    ((∃ d L, i = .prog d L) ∨ (∃ d data, i = .chunk d data) ∨
      (t.phase = s.phase ∧ t.remaining = s.remaining)) ∧
    (t.fault = s.fault ∨ t.fault = some .unassignedDevice ∨
      (t.fault = some .bitstreamShort ∧ ∃ d data, i = .chunk d data)) ∧
    (t.len = s.len ∨ t.len = 0 ∨
      (t.len = 2 ∧ ((∃ d L, i = .prog d L) ∨ ∃ d data, i = .chunk d data)))

/-- R206: a step that returns Consumed emits exactly one response, after every transaction; NeedMore and a
fault leave the record as it was; a step that has not returned emits nothing. -/
def Obligations.ConsumedStepSendsOneResponseLast : Prop :=
  ∀ s t : State, step s = .next t →
    (t.outcome = some .consumed → ∃ evs bytes, t.trace = s.trace ++ evs ++ [.emit bytes] ∧
      ∀ e ∈ evs, e.isEmit = false) ∧
    (t.outcome = some .needMore → t.trace = s.trace) ∧
    (s.fault = none → t.fault ≠ none → t.trace = s.trace) ∧
    (t.outcome = none → ∃ evs, t.trace = s.trace ++ evs ∧ ∀ e ∈ evs, e.isEmit = false)

/-- R170, R292: the loader's only transitions are Idle to HeaderReceived, HeaderReceived to Streaming and
Streaming to Idle, beside the two external resets. -/
def Obligations.PhaseTransitions : Prop :=
  ∀ s t : State, Inv s → step s = .next t → t.phase ≠ s.phase →
    (s.phase = .idle ∧ t.phase = .headerReceived) ∨
    (s.phase = .headerReceived ∧ t.phase = .streaming) ∨
    (s.phase = .streaming ∧ t.phase = .idle) ∨
    (t.phase = .idle ∧ (s.host.head? = some .connect ∨ s.host.head? = some .powerOn))

/-- R180, R33: while a transfer is in progress no command but its own chunks is decoded, for the device
of its header. -/
def Obligations.TransferTakesEveryByteAsPayload : Prop :=
  ∀ (s : State) (b : Byte) (F : List Byte) (i : Instr),
    Inv s → s.phase ≠ .idle → (s.append b).frameBytes? = some F →
    decode s.phase s.remaining F = .ok i →
    ∃ d data, i = .chunk d data ∧ Memory.read? s.frame 1 = some d

/-- R264, R305: every command but the header runs a bounded number of transactions, at most the 62 of a
first 16-bit temperature read, and one response. (That the final chunk is among them, against item 5 of R265,
is the model's reading: log 18.) -/
def Obligations.CommandsRunBoundedTransactions : Prop :=
  ∀ (s t : State) (i : Instr), i.wf = true → (∀ d L, i ≠ .prog d L) → exec i s = .next t →
    t.trace.length ≤ s.trace.length + 63

/-- R128, with R33 and R180: only a chunk that is not the last leaves a shift open, on the chain of the
transfer's header and with the transfer then Streaming; while it is Streaming the next transaction of a step
is a data-register write to that same chain; and until the transfer is over neither the header's device byte
nor the Device Table's positions change. (That the start sequence leaves no shift open is the model's reading
of R128: log 14.) -/
def Obligations.OnlyChunksLeaveTheShiftOpen : Prop :=
  ∀ s t : State, Inv s → step s = .next t →
    ∃ evs, t.trace = s.trace ++ evs ∧
      (∀ e ∈ evs, e.opensShift = true → ∃ d c data, evs = chunkEvents c data ∧ t.phase = .streaming ∧
        Memory.read? t.frame 1 = some d ∧ t.resolve d = some c) ∧
      (s.phase = .streaming → evs = [] ∨ ∃ d c data n last rest,
        evs = .scWriteDr c data n last :: rest ∧ Memory.read? s.frame 1 = some d ∧ s.resolve d = some c) ∧
      (s.phase ≠ .idle → t.phase ≠ .idle →
        Memory.read? t.frame 1 = Memory.read? s.frame 1 ∧ t.pos = s.pos)
end

