-- ==== Sys2Proof/Laws/Codec.lean ====
section
/-!
SUPPORT. Small laws of the bit codec (40_bit_codec.md): lengths, and what one `vset_T` does to every
vector index.
-/

namespace Sys2Proof.Machine

@[simp] theorem length_vsetT (buf : Buffer) (j : Nat) : (vsetT buf j).length = buf.length := by
  simp [vsetT]

/-- The bit that `vset_T` sets within its byte, and no other. -/
theorem setBit_getLsbD (j k : Nat) :
    (0x80#8).getLsbD (k % 8 + (7 - j % 8)) = decide (j % 8 = k % 8) := by
  have h : ∀ a b : Fin 8, (0x80#8).getLsbD (b.val + (7 - a.val)) = decide (a.val = b.val) := by decide
  exact h ⟨j % 8, Nat.mod_lt _ (by decide)⟩ ⟨k % 8, Nat.mod_lt _ (by decide)⟩

/-- `vset_T(buf, k)` sets vector index `k` and leaves every other one alone. -/
theorem vgetT_vsetT {buf : Buffer} {k : Nat} (h : k / 8 < buf.length) (j : Nat) :
    vgetT (vsetT buf k) j = (decide (j = k) || vgetT buf j) := by
  unfold vgetT vsetT
  by_cases hb : k / 8 = j / 8
  · have hj : j / 8 < buf.length := hb ▸ h
    have hd : decide (j % 8 = k % 8) = decide (j = k) := by
      apply decide_eq_decide.mpr
      constructor <;> intro h' <;> omega
    rw [hb]
    simp [List.getD_eq_getElem?_getD, hj, setBit_getLsbD, hd, Bool.or_comm]
  · have hjk : j ≠ k := fun e => hb (by rw [e])
    simp [List.getD_eq_getElem?_getD, hb, hjk]

/-- A packed buffer has `ceil(width/8)` bytes (R101). -/
@[simp] theorem length_packBits (v : Word) (w : Nat) : (packBits v w).length = ceil8 w := by
  have h : ∀ (is : List Nat) (buf : Buffer),
      (is.foldl (fun buf i => if v.getLsbD i then vsetT buf i else buf) buf).length = buf.length := by
    intro is
    induction is with
    | nil => intro buf; rfl
    | cons i is ih =>
      intro buf
      rw [List.foldl_cons, ih]
      split <;> simp
  simp [packBits, h]

@[simp] theorem length_applyOddParity (buf : Buffer) (n : Nat) :
    (applyOddParity buf n).length = buf.length := by
  unfold applyOddParity; split <;> simp

/-- Adding one vector index to the XOR (R107). -/
theorem parityT_succ (buf : Buffer) (n : Nat) : parityT buf (n + 1) = (parityT buf n ^^ vgetT buf n) := by
  simp [parityT, List.range_succ]

/-- Reversal keeps the length (R104). -/
@[simp] theorem length_reverseBitOrder (buf : Buffer) (n : Nat) :
    (reverseBitOrder buf n).length = buf.length := by
  simp [reverseBitOrder]; omega

/-- `rev8(x)[i] = x[7-i]` (R103). -/
theorem rev8_getLsbD (x : Byte) {i : Nat} (h : i < 8) : (rev8 x).getLsbD i = x.getLsbD (7 - i) := by
  rw [rev8, BitVec.getLsbD_reverse, BitVec.getMsbD_eq_getLsbD]
  simp [h]

@[simp] theorem rev8_rev8 (x : Byte) : rev8 (rev8 x) = x := by
  apply BitVec.eq_of_getLsbD_eq
  intro i hi
  rw [rev8_getLsbD _ hi, rev8_getLsbD _ (by omega)]
  congr 1
  omega

end Sys2Proof.Machine
end

