-- ==== Sys2Proof/Laws/State.lean ====
section
/-!
SUPPORT. What each update of the state does to each field of State: one lemma a field, so that no later
proof unfolds a record update.
-/

namespace Sys2Proof.Machine

/-! ### State.record -/

@[simp] theorem State.record_frame (e : Event) (s : State) : (s.record e).frame = s.frame := rfl
@[simp] theorem State.record_len (e : Event) (s : State) : (s.record e).len = s.len := rfl
@[simp] theorem State.record_phase (e : Event) (s : State) : (s.record e).phase = s.phase := rfl
@[simp] theorem State.record_remaining (e : Event) (s : State) : (s.record e).remaining = s.remaining := rfl
@[simp] theorem State.record_pos (e : Event) (s : State) : (s.record e).pos = s.pos := rfl
@[simp] theorem State.record_capped (e : Event) (s : State) : (s.record e).capped = s.capped := rfl
@[simp] theorem State.record_count (e : Event) (s : State) : (s.record e).count = s.count := rfl
@[simp] theorem State.record_configured (e : Event) (s : State) : (s.record e).configured = s.configured := rfl
@[simp] theorem State.record_fault (e : Event) (s : State) : (s.record e).fault = s.fault := rfl
@[simp] theorem State.record_ctl (e : Event) (s : State) : (s.record e).ctl = s.ctl := rfl
@[simp] theorem State.record_host (e : Event) (s : State) : (s.record e).host = s.host := rfl
@[simp] theorem State.record_answers (e : Event) (s : State) : (s.record e).answers = s.answers := rfl
@[simp] theorem State.record_draws (e : Event) (s : State) : (s.record e).draws = s.draws := rfl
@[simp] theorem State.record_trace (e : Event) (s : State) : (s.record e).trace = s.trace ++ [e] := rfl
@[simp] theorem State.record_outcome (e : Event) (s : State) : (s.record e).outcome = s.outcome := rfl

/-! ### State.append -/

@[simp] theorem State.append_frame (b : Byte) (s : State) : (s.append b).frame = s.frame.write s.len b := rfl
@[simp] theorem State.append_len (b : Byte) (s : State) : (s.append b).len = s.len + 1 := rfl
@[simp] theorem State.append_phase (b : Byte) (s : State) : (s.append b).phase = s.phase := rfl
@[simp] theorem State.append_remaining (b : Byte) (s : State) : (s.append b).remaining = s.remaining := rfl
@[simp] theorem State.append_pos (b : Byte) (s : State) : (s.append b).pos = s.pos := rfl
@[simp] theorem State.append_capped (b : Byte) (s : State) : (s.append b).capped = s.capped := rfl
@[simp] theorem State.append_count (b : Byte) (s : State) : (s.append b).count = s.count := rfl
@[simp] theorem State.append_configured (b : Byte) (s : State) : (s.append b).configured = s.configured := rfl
@[simp] theorem State.append_fault (b : Byte) (s : State) : (s.append b).fault = s.fault := rfl
@[simp] theorem State.append_ctl (b : Byte) (s : State) : (s.append b).ctl = s.ctl := rfl
@[simp] theorem State.append_host (b : Byte) (s : State) : (s.append b).host = s.host := rfl
@[simp] theorem State.append_answers (b : Byte) (s : State) : (s.append b).answers = s.answers := rfl
@[simp] theorem State.append_draws (b : Byte) (s : State) : (s.append b).draws = s.draws := rfl
@[simp] theorem State.append_trace (b : Byte) (s : State) : (s.append b).trace = s.trace := rfl
@[simp] theorem State.append_outcome (b : Byte) (s : State) : (s.append b).outcome = s.outcome := rfl

/-! ### State.consume -/

@[simp] theorem State.consume_frame (keep : Nat) (s : State) : (s.consume keep).frame = s.frame := rfl
@[simp] theorem State.consume_len (keep : Nat) (s : State) : (s.consume keep).len = keep := rfl
@[simp] theorem State.consume_phase (keep : Nat) (s : State) : (s.consume keep).phase = s.phase := rfl
@[simp] theorem State.consume_remaining (keep : Nat) (s : State) : (s.consume keep).remaining = s.remaining := rfl
@[simp] theorem State.consume_pos (keep : Nat) (s : State) : (s.consume keep).pos = s.pos := rfl
@[simp] theorem State.consume_capped (keep : Nat) (s : State) : (s.consume keep).capped = s.capped := rfl
@[simp] theorem State.consume_count (keep : Nat) (s : State) : (s.consume keep).count = s.count := rfl
@[simp] theorem State.consume_configured (keep : Nat) (s : State) : (s.consume keep).configured = s.configured := rfl
@[simp] theorem State.consume_fault (keep : Nat) (s : State) : (s.consume keep).fault = s.fault := rfl
@[simp] theorem State.consume_ctl (keep : Nat) (s : State) : (s.consume keep).ctl = .ready := rfl
@[simp] theorem State.consume_host (keep : Nat) (s : State) : (s.consume keep).host = s.host := rfl
@[simp] theorem State.consume_answers (keep : Nat) (s : State) : (s.consume keep).answers = s.answers := rfl
@[simp] theorem State.consume_draws (keep : Nat) (s : State) : (s.consume keep).draws = s.draws := rfl
@[simp] theorem State.consume_trace (keep : Nat) (s : State) : (s.consume keep).trace = s.trace := rfl
@[simp] theorem State.consume_outcome (keep : Nat) (s : State) : (s.consume keep).outcome = some .consumed := rfl

/-! ### State.sessionReset -/

@[simp] theorem State.sessionReset_frame (s : State) : (s.sessionReset).frame = s.frame := rfl
@[simp] theorem State.sessionReset_len (s : State) : (s.sessionReset).len = 0 := rfl
@[simp] theorem State.sessionReset_phase (s : State) : (s.sessionReset).phase = .idle := rfl
@[simp] theorem State.sessionReset_remaining (s : State) : (s.sessionReset).remaining = 0 := rfl
@[simp] theorem State.sessionReset_pos (s : State) : (s.sessionReset).pos = s.pos := rfl
@[simp] theorem State.sessionReset_capped (s : State) : (s.sessionReset).capped = s.capped := rfl
@[simp] theorem State.sessionReset_count (s : State) : (s.sessionReset).count = s.count := rfl
@[simp] theorem State.sessionReset_configured (s : State) : (s.sessionReset).configured = s.configured := rfl
@[simp] theorem State.sessionReset_fault (s : State) : (s.sessionReset).fault = s.fault := rfl
@[simp] theorem State.sessionReset_ctl (s : State) : (s.sessionReset).ctl = s.ctl := rfl
@[simp] theorem State.sessionReset_host (s : State) : (s.sessionReset).host = s.host := rfl
@[simp] theorem State.sessionReset_answers (s : State) : (s.sessionReset).answers = s.answers := rfl
@[simp] theorem State.sessionReset_draws (s : State) : (s.sessionReset).draws = s.draws := rfl
@[simp] theorem State.sessionReset_trace (s : State) : (s.sessionReset).trace = s.trace := rfl
@[simp] theorem State.sessionReset_outcome (s : State) : (s.sessionReset).outcome = none := rfl

/-! ### State.processReset -/

@[simp] theorem State.processReset_frame (s : State) : (s.processReset).frame = State.reset.frame := rfl
@[simp] theorem State.processReset_len (s : State) : (s.processReset).len = State.reset.len := rfl
@[simp] theorem State.processReset_phase (s : State) : (s.processReset).phase = State.reset.phase := rfl
@[simp] theorem State.processReset_remaining (s : State) : (s.processReset).remaining = State.reset.remaining := rfl
@[simp] theorem State.processReset_pos (s : State) : (s.processReset).pos = State.reset.pos := rfl
@[simp] theorem State.processReset_capped (s : State) : (s.processReset).capped = State.reset.capped := rfl
@[simp] theorem State.processReset_count (s : State) : (s.processReset).count = State.reset.count := rfl
@[simp] theorem State.processReset_configured (s : State) : (s.processReset).configured = State.reset.configured := rfl
@[simp] theorem State.processReset_fault (s : State) : (s.processReset).fault = State.reset.fault := rfl
@[simp] theorem State.processReset_ctl (s : State) : (s.processReset).ctl = State.reset.ctl := rfl
@[simp] theorem State.processReset_host (s : State) : (s.processReset).host = s.host := rfl
@[simp] theorem State.processReset_answers (s : State) : (s.processReset).answers = s.answers := rfl
@[simp] theorem State.processReset_draws (s : State) : (s.processReset).draws = s.draws := rfl
@[simp] theorem State.processReset_trace (s : State) : (s.processReset).trace = s.trace := rfl
@[simp] theorem State.processReset_outcome (s : State) : (s.processReset).outcome = State.reset.outcome := rfl

/-! ### State.clearTable -/

@[simp] theorem State.clearTable_frame (s : State) : (s.clearTable).frame = s.frame := rfl
@[simp] theorem State.clearTable_len (s : State) : (s.clearTable).len = s.len := rfl
@[simp] theorem State.clearTable_phase (s : State) : (s.clearTable).phase = s.phase := rfl
@[simp] theorem State.clearTable_remaining (s : State) : (s.clearTable).remaining = s.remaining := rfl
@[simp] theorem State.clearTable_pos (s : State) : (s.clearTable).pos = State.reset.pos := rfl
@[simp] theorem State.clearTable_capped (s : State) : (s.clearTable).capped = State.reset.capped := rfl
@[simp] theorem State.clearTable_count (s : State) : (s.clearTable).count = 0 := rfl
@[simp] theorem State.clearTable_configured (s : State) : (s.clearTable).configured = s.configured := rfl
@[simp] theorem State.clearTable_fault (s : State) : (s.clearTable).fault = s.fault := rfl
@[simp] theorem State.clearTable_ctl (s : State) : (s.clearTable).ctl = s.ctl := rfl
@[simp] theorem State.clearTable_host (s : State) : (s.clearTable).host = s.host := rfl
@[simp] theorem State.clearTable_answers (s : State) : (s.clearTable).answers = s.answers := rfl
@[simp] theorem State.clearTable_draws (s : State) : (s.clearTable).draws = s.draws := rfl
@[simp] theorem State.clearTable_trace (s : State) : (s.clearTable).trace = s.trace := rfl
@[simp] theorem State.clearTable_outcome (s : State) : (s.clearTable).outcome = s.outcome := rfl

/-! ### State.takeAnswer -/

@[simp] theorem State.takeAnswer_frame (s : State) : (s.takeAnswer).frame = s.frame := by
  cases h : s.answers <;> simp [State.takeAnswer, h]
@[simp] theorem State.takeAnswer_len (s : State) : (s.takeAnswer).len = s.len := by
  cases h : s.answers <;> simp [State.takeAnswer, h]
@[simp] theorem State.takeAnswer_phase (s : State) : (s.takeAnswer).phase = s.phase := by
  cases h : s.answers <;> simp [State.takeAnswer, h]
@[simp] theorem State.takeAnswer_remaining (s : State) : (s.takeAnswer).remaining = s.remaining := by
  cases h : s.answers <;> simp [State.takeAnswer, h]
@[simp] theorem State.takeAnswer_pos (s : State) : (s.takeAnswer).pos = s.pos := by
  cases h : s.answers <;> simp [State.takeAnswer, h]
@[simp] theorem State.takeAnswer_capped (s : State) : (s.takeAnswer).capped = s.capped := by
  cases h : s.answers <;> simp [State.takeAnswer, h]
@[simp] theorem State.takeAnswer_count (s : State) : (s.takeAnswer).count = s.count := by
  cases h : s.answers <;> simp [State.takeAnswer, h]
@[simp] theorem State.takeAnswer_configured (s : State) : (s.takeAnswer).configured = s.configured := by
  cases h : s.answers <;> simp [State.takeAnswer, h]
@[simp] theorem State.takeAnswer_fault (s : State) : (s.takeAnswer).fault = s.fault := by
  cases h : s.answers <;> simp [State.takeAnswer, h]
@[simp] theorem State.takeAnswer_ctl (s : State) : (s.takeAnswer).ctl = s.ctl := by
  cases h : s.answers <;> simp [State.takeAnswer, h]
@[simp] theorem State.takeAnswer_host (s : State) : (s.takeAnswer).host = s.host := by
  cases h : s.answers <;> simp [State.takeAnswer, h]
@[simp] theorem State.takeAnswer_answers (s : State) : (s.takeAnswer).answers = s.answers.tail := by
  cases h : s.answers <;> simp [State.takeAnswer, h]
@[simp] theorem State.takeAnswer_draws (s : State) : (s.takeAnswer).draws = s.draws + (1 - s.answers.length) := by
  cases h : s.answers <;> simp [State.takeAnswer, h]
@[simp] theorem State.takeAnswer_trace (s : State) : (s.takeAnswer).trace = s.trace := by
  cases h : s.answers <;> simp [State.takeAnswer, h]
@[simp] theorem State.takeAnswer_outcome (s : State) : (s.takeAnswer).outcome = s.outcome := by
  cases h : s.answers <;> simp [State.takeAnswer, h]

/-! ### State.setCapped -/

@[simp] theorem State.setCapped_frame (d : Byte) (b : Bool) (s : State) : (s.setCapped d b).frame = s.frame := by
  unfold State.setCapped; split <;> rfl
@[simp] theorem State.setCapped_len (d : Byte) (b : Bool) (s : State) : (s.setCapped d b).len = s.len := by
  unfold State.setCapped; split <;> rfl
@[simp] theorem State.setCapped_phase (d : Byte) (b : Bool) (s : State) : (s.setCapped d b).phase = s.phase := by
  unfold State.setCapped; split <;> rfl
@[simp] theorem State.setCapped_remaining (d : Byte) (b : Bool) (s : State) : (s.setCapped d b).remaining = s.remaining := by
  unfold State.setCapped; split <;> rfl
@[simp] theorem State.setCapped_pos (d : Byte) (b : Bool) (s : State) : (s.setCapped d b).pos = s.pos := by
  unfold State.setCapped; split <;> rfl
@[simp] theorem State.setCapped_capped (d : Byte) (b : Bool) (s : State) : (s.setCapped d b).capped = (if h : d.toNat < 5 then s.capped.set d.toNat b else s.capped) := by
  unfold State.setCapped; split <;> rfl
@[simp] theorem State.setCapped_count (d : Byte) (b : Bool) (s : State) : (s.setCapped d b).count = s.count := by
  unfold State.setCapped; split <;> rfl
@[simp] theorem State.setCapped_configured (d : Byte) (b : Bool) (s : State) : (s.setCapped d b).configured = s.configured := by
  unfold State.setCapped; split <;> rfl
@[simp] theorem State.setCapped_fault (d : Byte) (b : Bool) (s : State) : (s.setCapped d b).fault = s.fault := by
  unfold State.setCapped; split <;> rfl
@[simp] theorem State.setCapped_ctl (d : Byte) (b : Bool) (s : State) : (s.setCapped d b).ctl = s.ctl := by
  unfold State.setCapped; split <;> rfl
@[simp] theorem State.setCapped_host (d : Byte) (b : Bool) (s : State) : (s.setCapped d b).host = s.host := by
  unfold State.setCapped; split <;> rfl
@[simp] theorem State.setCapped_answers (d : Byte) (b : Bool) (s : State) : (s.setCapped d b).answers = s.answers := by
  unfold State.setCapped; split <;> rfl
@[simp] theorem State.setCapped_draws (d : Byte) (b : Bool) (s : State) : (s.setCapped d b).draws = s.draws := by
  unfold State.setCapped; split <;> rfl
@[simp] theorem State.setCapped_trace (d : Byte) (b : Bool) (s : State) : (s.setCapped d b).trace = s.trace := by
  unfold State.setCapped; split <;> rfl
@[simp] theorem State.setCapped_outcome (d : Byte) (b : Bool) (s : State) : (s.setCapped d b).outcome = s.outcome := by
  unfold State.setCapped; split <;> rfl

/-! ### State.addSlot -/

@[simp] theorem State.addSlot_frame (c : Byte) (s : State) : (s.addSlot c).frame = s.frame := by
  unfold State.addSlot; split <;> rfl
@[simp] theorem State.addSlot_len (c : Byte) (s : State) : (s.addSlot c).len = s.len := by
  unfold State.addSlot; split <;> rfl
@[simp] theorem State.addSlot_phase (c : Byte) (s : State) : (s.addSlot c).phase = s.phase := by
  unfold State.addSlot; split <;> rfl
@[simp] theorem State.addSlot_remaining (c : Byte) (s : State) : (s.addSlot c).remaining = s.remaining := by
  unfold State.addSlot; split <;> rfl
@[simp] theorem State.addSlot_pos (c : Byte) (s : State) : (s.addSlot c).pos = (if h : s.count.val < 4 then s.pos.set s.count.val c else s.pos) := by
  unfold State.addSlot; split <;> rfl
@[simp] theorem State.addSlot_capped (c : Byte) (s : State) : (s.addSlot c).capped = s.capped := by
  unfold State.addSlot; split <;> rfl
@[simp] theorem State.addSlot_count (c : Byte) (s : State) : (s.addSlot c).count = (if h : s.count.val < 4 then ⟨s.count.val + 1, by omega⟩ else s.count) := by
  unfold State.addSlot; split <;> rfl
@[simp] theorem State.addSlot_configured (c : Byte) (s : State) : (s.addSlot c).configured = s.configured := by
  unfold State.addSlot; split <;> rfl
@[simp] theorem State.addSlot_fault (c : Byte) (s : State) : (s.addSlot c).fault = s.fault := by
  unfold State.addSlot; split <;> rfl
@[simp] theorem State.addSlot_ctl (c : Byte) (s : State) : (s.addSlot c).ctl = s.ctl := by
  unfold State.addSlot; split <;> rfl
@[simp] theorem State.addSlot_host (c : Byte) (s : State) : (s.addSlot c).host = s.host := by
  unfold State.addSlot; split <;> rfl
@[simp] theorem State.addSlot_answers (c : Byte) (s : State) : (s.addSlot c).answers = s.answers := by
  unfold State.addSlot; split <;> rfl
@[simp] theorem State.addSlot_draws (c : Byte) (s : State) : (s.addSlot c).draws = s.draws := by
  unfold State.addSlot; split <;> rfl
@[simp] theorem State.addSlot_trace (c : Byte) (s : State) : (s.addSlot c).trace = s.trace := by
  unfold State.addSlot; split <;> rfl
@[simp] theorem State.addSlot_outcome (c : Byte) (s : State) : (s.addSlot c).outcome = s.outcome := by
  unfold State.addSlot; split <;> rfl

/-! ### State.dropPause -/

@[simp] theorem State.dropPause_frame (s : State) : (s.dropPause).frame = s.frame := by
  unfold State.dropPause; split <;> simp_all
@[simp] theorem State.dropPause_len (s : State) : (s.dropPause).len = s.len := by
  unfold State.dropPause; split <;> simp_all
@[simp] theorem State.dropPause_phase (s : State) : (s.dropPause).phase = s.phase := by
  unfold State.dropPause; split <;> simp_all
@[simp] theorem State.dropPause_remaining (s : State) : (s.dropPause).remaining = s.remaining := by
  unfold State.dropPause; split <;> simp_all
@[simp] theorem State.dropPause_pos (s : State) : (s.dropPause).pos = s.pos := by
  unfold State.dropPause; split <;> simp_all
@[simp] theorem State.dropPause_capped (s : State) : (s.dropPause).capped = s.capped := by
  unfold State.dropPause; split <;> simp_all
@[simp] theorem State.dropPause_count (s : State) : (s.dropPause).count = s.count := by
  unfold State.dropPause; split <;> simp_all
@[simp] theorem State.dropPause_configured (s : State) : (s.dropPause).configured = s.configured := by
  unfold State.dropPause; split <;> simp_all
@[simp] theorem State.dropPause_fault (s : State) : (s.dropPause).fault = s.fault := by
  unfold State.dropPause; split <;> simp_all
@[simp] theorem State.dropPause_ctl (s : State) : (s.dropPause).ctl = s.ctl := by
  unfold State.dropPause; split <;> simp_all
@[simp] theorem State.dropPause_host (s : State) : (s.dropPause).host = (match s.host with | .pause :: rest => rest | _ => s.host) := by
  unfold State.dropPause; split <;> simp_all
@[simp] theorem State.dropPause_answers (s : State) : (s.dropPause).answers = s.answers := by
  unfold State.dropPause; split <;> simp_all
@[simp] theorem State.dropPause_draws (s : State) : (s.dropPause).draws = s.draws := by
  unfold State.dropPause; split <;> simp_all
@[simp] theorem State.dropPause_trace (s : State) : (s.dropPause).trace = s.trace := by
  unfold State.dropPause; split <;> simp_all
@[simp] theorem State.dropPause_outcome (s : State) : (s.dropPause).outcome = s.outcome := by
  unfold State.dropPause; split <;> simp_all

end Sys2Proof.Machine
end

