-- ==== Sys2Proof/Laws/Memory.lean ====
section
/-!
SUPPORT. The laws of the frame buffer: what a read gives after a write, the canonical form, and what a
range read gives.
-/

namespace Sys2Proof.Machine

@[simp] theorem Memory.read?_write_same (m : Memory) (a : Nat) (b : Byte) :
    Memory.read? (Memory.write m a b) a = some b := by
  induction m with
  | nil => simp [Memory.write, Memory.read?]
  | cons e m ih =>
    obtain ⟨k, c⟩ := e
    simp only [Memory.write]
    split
    · simp [Memory.read?]
    · split
      · simp [Memory.read?]
      · simp [Memory.read?, ih]; omega

@[simp] theorem Memory.read?_write_other (m : Memory) {a a' : Nat} (b : Byte) (h : a' ≠ a) :
    Memory.read? (Memory.write m a b) a' = Memory.read? m a' := by
  induction m with
  | nil => simp [Memory.write, Memory.read?, Ne.symm h]
  | cons e m ih =>
    obtain ⟨k, c⟩ := e
    simp only [Memory.write]
    split
    · simp [Memory.read?, Ne.symm h]
    · split
      · rename_i hk; subst hk; simp [Memory.read?, Ne.symm h]
      · simp [Memory.read?, ih]

/-- What offsets a write can list: the old ones and the one written. -/
theorem Memory.mem_offsets_write {m : Memory} {a x : Nat} {b : Byte}
    (h : x ∈ (Memory.write m a b).map Prod.fst) : x = a ∨ x ∈ m.map Prod.fst := by
  induction m with
  | nil => simpa [Memory.write] using h
  | cons e m ih =>
    obtain ⟨k, c⟩ := e
    simp only [Memory.write] at h
    split at h
    · simpa using h
    · split at h
      · simp only [List.map_cons, List.mem_cons] at h ⊢; tauto
      · simp only [List.map_cons, List.mem_cons] at h ⊢
        rcases h with h | h
        · exact .inr (.inl h)
        · rcases ih h with h | h <;> tauto

/-- A write keeps the canonical form. -/
theorem Memory.wf_write {m : Memory} (h : Memory.wf m) (a : Nat) (b : Byte) :
    Memory.wf (Memory.write m a b) := by
  induction m with
  | nil => simp [Memory.wf, Memory.write]
  | cons e m ih =>
    obtain ⟨k, c⟩ := e
    simp only [Memory.wf, List.map_cons, List.pairwise_cons] at h
    simp only [Memory.write]
    split
    · rename_i hk
      simp only [Memory.wf, List.map_cons, List.pairwise_cons, List.mem_cons]
      refine ⟨?_, h.1, h.2⟩
      rintro x (rfl | hx)
      · exact hk
      · exact Nat.lt_trans hk (h.1 x hx)
    · split
      · rename_i hk; subst hk
        simpa [Memory.wf] using h
      · simp only [Memory.wf, List.map_cons, List.pairwise_cons]
        refine ⟨fun x hx => ?_, ih h.2⟩
        rcases Memory.mem_offsets_write hx with rfl | hx
        · omega
        · exact h.1 x hx

/-- Writing a range keeps the canonical form. -/
theorem Memory.wf_writeRange {m : Memory} (h : Memory.wf m) (a : Nat) (bs : List Byte) :
    Memory.wf (Memory.writeRange m a bs) := by
  induction bs generalizing m a with
  | nil => exact h
  | cons b bs ih => exact ih (Memory.wf_write h a b) (a + 1)

/-- A range read gives bytes exactly when every byte of the range was written. -/
theorem Memory.readRange?_eq_some {m : Memory} {a n : Nat} {bs : List Byte} :
    Memory.readRange? m a n = some bs ↔
      bs.length = n ∧ ∀ i, i < n → Memory.read? m (a + i) = bs[i]? := by
  induction n generalizing a bs with
  | zero =>
    simp only [Memory.readRange?, Option.some.injEq]
    constructor
    · rintro rfl; simp
    · rintro ⟨h, -⟩; exact (List.length_eq_zero_iff.mp h).symm
  | succ n ih =>
    simp only [Memory.readRange?]
    constructor
    · intro h
      split at h
      · rename_i b bs' hb hbs
        obtain rfl := Option.some.inj h
        obtain ⟨hl, hr⟩ := ih.mp hbs
        refine ⟨by simp [hl], fun i hi => ?_⟩
        cases i with
        | zero => simpa using hb
        | succ i =>
          have := hr i (by omega)
          simpa [Nat.add_assoc, Nat.add_comm 1 i] using this
      · cases h
    · rintro ⟨hl, hr⟩
      cases bs with
      | nil => simp at hl
      | cons b bs =>
        have h0 : Memory.read? m a = some b := by simpa using hr 0 (by omega)
        have hs : Memory.readRange? m (a + 1) n = some bs := by
          refine ih.mpr ⟨by simpa using hl, fun i hi => ?_⟩
          have := hr (i + 1) (by omega)
          simpa [Nat.add_assoc, Nat.add_comm 1 i] using this
        simp [h0, hs]

/-- A range read does not see a write outside the range. -/
theorem Memory.readRange?_write_outside (m : Memory) {a n x : Nat} (b : Byte)
    (h : x < a ∨ a + n ≤ x) :
    Memory.readRange? (Memory.write m x b) a n = Memory.readRange? m a n := by
  induction n generalizing a with
  | zero => rfl
  | succ n ih =>
    simp only [Memory.readRange?]
    rw [Memory.read?_write_other m b (by omega : a ≠ x), ih (by omega)]

/-- The frame after an append is the frame before it and the byte. -/
theorem State.frameBytes?_append {s : State} {F : List Byte} (h : s.frameBytes? = some F) (b : Byte) :
    (s.append b).frameBytes? = some (F ++ [b]) := by
  rw [State.frameBytes?, Memory.readRange?_eq_some] at h ⊢
  obtain ⟨hl, hr⟩ := h
  refine ⟨by simp [hl], fun i hi => ?_⟩
  simp only [State.append_len, State.append_frame, Nat.zero_add] at *
  by_cases hi' : i = s.len
  · subst hi'; simp [← hl]
  · rw [Memory.read?_write_other _ _ hi', hr i (by omega),
      List.getElem?_append_left (by omega)]

end Sys2Proof.Machine
end

