-- ==== Sys2Proof/Laws/Ops.lean ====
section
/-!
SUPPORT. One lemma for each shared operation, saying everything it does: the answers it takes, the events
it records, the state it leaves alone.
-/

namespace Sys2Proof.Machine

/-! ### Answers -/

theorem State.takeAnswers_eq (n : Nat) (s : State) :
    s.takeAnswers n =
      { s with answers := s.answers.drop n, draws := s.draws + (n - s.answers.length) } := by
  induction n generalizing s with
  | zero => simp [State.takeAnswers]
  | succ n ih =>
    rw [State.takeAnswers, ih]
    cases h : s.answers with
    | nil => simp [State.takeAnswer, h]; omega
    | cons b rest => simp [State.takeAnswer, h]

/-- The answers are the scripted ones, then free values. -/
theorem State.nextAnswers_eq (n : Nat) (s : State) :
    s.nextAnswers n =
      s.answers.take n ++
        (List.range (n - s.answers.length)).map fun i => Config.freeAnswer (s.draws + i) := by
  induction n generalizing s with
  | zero => simp [State.nextAnswers]
  | succ n ih =>
    rw [State.nextAnswers, ih]
    cases h : s.answers with
    | nil =>
      simp only [State.nextAnswer, State.takeAnswer, h, List.take_nil, List.length_nil, Nat.sub_zero,
        List.nil_append, List.range_succ_eq_map, List.map_cons, List.map_map, Nat.add_zero]
      congr 1
      apply List.map_congr_left
      intro i _
      simp [Nat.add_assoc, Nat.add_comm 1 i]
    | cons b rest => simp [State.nextAnswer, State.takeAnswer, h]

@[simp] theorem State.length_nextAnswers (n : Nat) (s : State) : (s.nextAnswers n).length = n := by
  induction n generalizing s with
  | zero => rfl
  | succ n ih => simp [State.nextAnswers, ih]

/-- The next answers depend on the queue and the counter only. -/
theorem State.nextAnswers_congr {s t : State} (n : Nat) (ha : s.answers = t.answers)
    (hd : s.draws = t.draws) : s.nextAnswers n = t.nextAnswers n := by
  rw [State.nextAnswers_eq, State.nextAnswers_eq, ha, hd]

/-- Answers that stand in the queue are the ones taken. -/
theorem State.nextAnswers_of_answers {s : State} {bs rest : List Byte} (h : s.answers = bs ++ rest) :
    s.nextAnswers bs.length = bs := by
  simp [State.nextAnswers_eq, h]

theorem State.nextAnswers_one (s : State) : s.nextAnswers 1 = [s.nextAnswer] := rfl

theorem State.takeAnswers_one (s : State) : s.takeAnswers 1 = s.takeAnswer := rfl

@[simp] theorem State.nextAnswer_record (s : State) (e : Event) :
    (s.record e).nextAnswer = s.nextAnswer := rfl

@[simp] theorem State.nextAnswers_record (s : State) (e : Event) (n : Nat) :
    (s.record e).nextAnswers n = s.nextAnswers n := State.nextAnswers_congr n rfl rfl

/-! ### What a sequence of transactions did -/

@[simp] theorem State.did_nil (s : State) : s.did [] 0 = s := by
  simp [State.did, State.takeAnswers]

theorem State.record_eq_did (e : Event) (s : State) : s.record e = s.did [e] 0 := rfl

theorem State.did_did (e₁ e₂ : List Event) (m n : Nat) (s : State) :
    (s.did e₁ m).did e₂ n = s.did (e₁ ++ e₂) (m + n) := by
  simp only [State.did, State.takeAnswers_eq, List.drop_drop, List.length_drop, List.append_assoc,
    State.mk.injEq, and_self, true_and, and_true]
  omega

theorem State.record_did (e : Event) (es : List Event) (n : Nat) (s : State) :
    (s.did es n).record e = s.did (es ++ [e]) n := by
  rw [State.record_eq_did, State.did_did, Nat.add_zero]

theorem State.takeAnswers_did (es : List Event) (m n : Nat) (s : State) :
    (s.did es m).takeAnswers n = s.did es (m + n) := by
  have h : ∀ t : State, t.did [] n = t.takeAnswers n := fun t => by
    simp [State.did, State.takeAnswers_eq]
  rw [← h, State.did_did, List.append_nil]

theorem State.takeAnswer_did (es : List Event) (m : Nat) (s : State) :
    (s.did es m).takeAnswer = s.did es (m + 1) := State.takeAnswers_did es m 1 s

/-- The answers after `m` of them were taken. -/
theorem State.nextAnswers_did (es : List Event) (m n : Nat) (s : State) :
    (s.did es m).nextAnswers n = (s.nextAnswers (m + n)).drop m := by
  have h : ∀ (m : Nat) (s : State), (s.takeAnswers m).nextAnswers n = (s.nextAnswers (m + n)).drop m := by
    intro m
    induction m with
    | zero => intro s; simp [State.takeAnswers]
    | succ m ih =>
      intro s
      rw [State.takeAnswers, ih, Nat.succ_add_eq_add_succ, Nat.add_succ]
      simp [State.nextAnswers]
  rw [← h]
  exact State.nextAnswers_congr n rfl rfl

@[simp] theorem State.nextAnswers_did_zero (es : List Event) (n : Nat) (s : State) :
    (s.did es 0).nextAnswers n = s.nextAnswers n := State.nextAnswers_congr n rfl rfl

/-! ### Ends of a step -/

theorem respond_did (bytes : List Byte) (keep : Nat) (es : List Event) (n : Nat) (s : State) :
    respond bytes keep (s.did es n) = .next (s.completed (es ++ [.emit bytes]) n keep) := by
  rw [respond, State.record_did, State.completed]

theorem onDevice_none {d : Byte} {s : State} (h : s.resolve d = none)
    (body : Byte → Host.Outcome State Fault Refusal) :
    onDevice d s body = raiseFault .unassignedDevice s := by
  simp [onDevice, h]

theorem onDevice_some {d c : Byte} {s : State} (h : s.resolve d = some c)
    (body : Byte → Host.Outcome State Fault Refusal) : onDevice d s body = body c := by
  simp [onDevice, h]

/-- RESOLVE (42_topology.md rule R142), by the slot. -/
theorem State.resolve_eq_some {s : State} {d c : Byte} :
    s.resolve d = some c ↔ ∃ h : d.toNat < 5, s.pos[d.toNat] = c ∧ c ≠ unassigned := by
  simp only [State.resolve]
  split
  · rename_i h
    split
    · rename_i hu
      constructor
      · simp
      · rintro ⟨_, rfl, hc⟩; exact absurd hu hc
    · rename_i hu
      constructor
      · intro hc; cases hc; exact ⟨h, rfl, hu⟩
      · rintro ⟨_, rfl, -⟩; rfl
  · rename_i h
    constructor
    · simp
    · rintro ⟨h', -⟩; exact absurd h' h

/-! ### The scan-chain sequences -/

theorem capture32_eq (c : Byte) (es : List Event) (n : Nat) (s : State) :
    capture32 c (s.did es n) =
      (unpackBits ((s.nextAnswers (n + 4)).drop n) 32,
        s.did (es ++ [.scReadDr c 32 [0, 0, 0, 0], .scReset c]) (n + 4)) := by
  simp only [capture32, scReadDr, scReset, regBits, show ceil8 32 = 4 from rfl, zeros32,
    State.record_did, State.takeAnswers_did, State.nextAnswers_did, List.append_assoc, List.cons_append,
    List.nil_append]

/-- `read_register` (R123): its four transactions, its four answered bytes, its value. -/
theorem readRegister_eq (c addr : Byte) (s : State) :
    readRegister c addr s =
      (unpackBits (s.nextAnswers 4) 32,
        s.did [.scWriteIr c Config.irUser, .scWriteDr c (readPayload addr) 6 true,
          .scReadDr c 32 [0, 0, 0, 0], .scReset c] 4) := by
  simp only [readRegister, scWriteIr, scWriteDr, State.record_eq_did, State.did_did, capture32_eq]
  rfl

/-- `read_code` (R125). -/
theorem readCode_eq (c : Byte) (ir : IrCode) (s : State) :
    readCode c ir s =
      (unpackBits (s.nextAnswers 4) 32,
        s.did [.scWriteIr c ir, .scReadDr c 32 [0, 0, 0, 0], .scReset c] 4) := by
  simp only [readCode, scWriteIr, State.record_eq_did, capture32_eq]
  rfl

/-- `write_register` (R124): its three transactions. -/
theorem writeRegister_eq (c addr : Byte) (v : Word) (s : State) :
    writeRegister c addr v s =
      s.did [.scWriteIr c Config.irUser, .scWriteDr c (writePayload addr v) 38 true, .scRun c 1] 0 := by
  simp only [writeRegister, scRun, scWriteDr, scWriteIr, State.record_eq_did, State.did_did]
  rfl

/-- `aux_shift` (R126). -/
theorem auxShift_eq (c : Byte) (n : Nat) (tx : Buffer) (s : State) :
    auxShift c n tx s =
      (s.nextAnswers (ceil8 n), s.did [.scWriteIr c Config.irAux, .scReadDr c n tx] (ceil8 n)) := by
  simp only [auxShift, scReadDr, scWriteIr, State.record_eq_did, State.did_did, State.takeAnswers_did,
    State.nextAnswers_did_zero, Nat.zero_add, Nat.add_zero, List.cons_append, List.nil_append]

/-- `ir_status` (R127): the capture itself, and one transaction. -/
theorem irStatus_eq (c : Byte) (s : State) :
    irStatus c s = (s.nextAnswer.setWidth 6, s.did [.scReadIr c] 1) := by
  have h : ∀ x : IrCode, (unpackBits [x.setWidth 8] statusBits).setWidth 6 = x := by decide +kernel
  simp only [irStatus, scReadIr, h, State.record_eq_did, State.takeAnswer_did]
  rfl

theorem writeWords_eq (c : Byte) (a : Nat) (ws : List Word) (s : State) :
    writeWords c a ws s = s.did (writeEvents c a ws) 0 := by
  induction ws generalizing a s with
  | nil => simp [writeWords, writeEvents]
  | cons w ws ih =>
    rw [writeWords, ih, writeRegister_eq, State.did_did, writeEvents]

/-! ### The temperature reader -/

theorem clockIn_eq (t : Fin 4) (n : Nat) (v : BitVec 16) (s : State) :
    clockIn t n v s = (readingOf v (s.nextAnswers n), s.did (pulseEvents t n) n) := by
  induction n generalizing v s with
  | zero => simp [clockIn, readingOf, State.nextAnswers, pulseEvents]
  | succ n ih =>
    have hp : clockPulse t s = (s.nextAnswer.getLsbD 0,
        s.did [.gpioWrite (clkPin t) true, .gpioRead (dataPin t), .gpioWrite (clkPin t) false] 1) := by
      simp only [clockPulse, gpioRead, gpioWrite, State.nextAnswer_record]
      simp only [State.record_eq_did, State.did_did, State.takeAnswer_did]
      rfl
    rw [clockIn, hp, ih, State.did_did, State.nextAnswers_did, Nat.add_comm 1 n]
    simp [pulseEvents, List.replicate_succ, readingOf, State.nextAnswers]

theorem tempConfigure_eq (s : State) :
    tempConfigure s = { s.did (configureEvents s.configured) 0 with configured := true } := by
  cases hc : s.configured with
  | true =>
    obtain ⟨_, _, _, _, _, _, _, _, _, _, _, _, _, _, _⟩ := s
    simp_all [tempConfigure, configureEvents, State.did, State.takeAnswers]
  | false =>
    simp [tempConfigure, configureEvents, hc, configureTriple, gpioDir, State.did, State.takeAnswers,
      State.record]

/-- `read_temperature` (R152) on a triple: its transactions, its answers, its value. -/
theorem readTemperature_eq {d : Byte} {t : Fin 4} (h : tripleOf d = some t) (n : Nat) (s : State) :
    readTemperature d n s =
      (readingOf 0 (s.nextAnswers n),
        { s.did (configureEvents s.configured ++ [.gpioWrite (csPin t) false] ++ pulseEvents t n ++
            [.gpioWrite (csPin t) true]) n with configured := true }) := by
  have hn : ∀ x : State, ({ x with configured := true } : State).nextAnswers n = x.nextAnswers n :=
    fun x => State.nextAnswers_congr n rfl rfl
  simp only [readTemperature, h, gpioWrite, clockIn_eq, tempConfigure_eq, State.nextAnswers_record, hn,
    State.nextAnswers_did_zero, Prod.mk.injEq, true_and]
  simp [State.did, State.takeAnswers_eq, State.record]

/-- A byte of 4 or more names no triple: the read is 0 and does nothing (R152, R154). -/
theorem readTemperature_none {d : Byte} (h : tripleOf d = none) (n : Nat) (s : State) :
    readTemperature d n s = (0, s) := by
  simp [readTemperature, h]

/-! ### The bitstream loader -/

theorem issueStart_eq (c : Byte) (s : State) :
    issueStart c s = s.did (Config.cfgStartSeq.map (CfgOp.event c)) 0 := by
  have h : ∀ (ops : List CfgOp) (s : State),
      ops.foldl (fun s op => s.record (CfgOp.event c op)) s = s.did (ops.map (CfgOp.event c)) 0 := by
    intro ops
    induction ops with
    | nil => intro s; simp
    | cons op ops ih =>
      intro s
      rw [List.foldl_cons, ih, State.record_eq_did, State.did_did]
      rfl
  exact h _ s

/-- The start sequence sends no response and leaves no shift open (41_scan_access.md rule R128). -/
theorem CfgOp.event_facts (c : Byte) (op : CfgOp) :
    (CfgOp.event c op).isEmit = false ∧ (CfgOp.event c op).opensShift = false := by
  cases op with
  | writeDr whole part => rcases part with _ | ⟨k, b⟩ <;> exact ⟨rfl, rfl⟩
  | writeIr code => exact ⟨rfl, rfl⟩
  | run strobes => exact ⟨rfl, rfl⟩
  | reset => exact ⟨rfl, rfl⟩

/-- One poll iteration (44_bitstream.md rule R177): it stays in the poll or goes on with the header. -/
theorem pollStatus_eq (c : Byte) (length : Word) (s : State) :
    pollStatus c length s =
      if (s.nextAnswer.setWidth 6).getLsbD Config.statusPollBit.val then
        .next { s.did [.scReadIr c] 1 with ctl := .polling c length, outcome := none }
      else
        .next { s.completed [.scReadIr c, .scWriteIr c Config.irCfgIn, .emit [Config.ackReady]] 1 2 with
          remaining := length, phase := .headerReceived } := by
  simp only [pollStatus, irStatus_eq, finishHeader, scWriteIr]
  split
  · rfl
  · simp [respond, State.completed, State.did, State.consume, State.record, State.takeAnswers_eq]

end Sys2Proof.Machine
end

