-- ==== Sys2Proof/Laws/Exec.lean ====
section
/-!
SUPPORT. What a command can do, said once: if `exec i s` answers a next state, it is one of the cases of
`ExecNext`. Later proofs cite `exec_next` and never unfold a meaning.
-/

namespace Sys2Proof.Machine

/-- Every way a command answers a next state. -/
inductive ExecNext (i : Instr) (s : State) : State → Prop where
  /-- RESOLVE took UNASSIGNED_DEVICE. -/
  | unassigned (d : Byte) (hi : resolvedByte i = some d) (hr : s.resolve d = none) :
      ExecNext i s { s with fault := some .unassignedDevice, outcome := none }
  /-- The first chunk took BITSTREAM_SHORT. -/
  | short (d c : Byte) (data : List Byte) (hi : i = .chunk d data) (hr : s.resolve d = some c)
      (hp : s.phase = .headerReceived) (hl : s.remaining.toNat < 32) :
      ExecNext i s { s with fault := some .bitstreamShort, outcome := none }
  /-- A command other than PROG and CHUNK was consumed. -/
  | done (events : List Event) (bytes : List Byte) (n : Nat) (capped : Vector Bool 5)
      (configured : Bool)
      (hi : (∀ d L, i ≠ .prog d L) ∧ ∀ d data, i ≠ .chunk d data)
      (hr : ∀ d, resolvedByte i = some d → ∃ c, s.resolve d = some c)
      (he : ∀ e ∈ events, e.isEmit = false ∧ e.opensShift = false)
      (hl : i.wf = true → events.length ≤ 62)
      (hc : capped = s.capped ∨
        ∃ d r b, ∃ h : d.toNat < 5, i = .setclk d r ∧ capped = s.capped.set d.toNat b)
      (hg : configured = s.configured ∨ ∃ d, i = .temp d ∨ i = .temp16 d) :
      ExecNext i s { s.completed (events ++ [.emit bytes]) n 0 with
        capped := capped, configured := configured }
  /-- A header whose first polled status is busy. -/
  | waits (d c : Byte) (L : Word) (hi : i = .prog d L) (hr : s.resolve d = some c)
      (hb : pollBusy s.nextAnswer = true) :
      ExecNext i s { s.did (Config.cfgStartSeq.map (CfgOp.event c) ++ [.scReadIr c]) 1 with
        ctl := .polling c L, outcome := none }
  /-- A header whose first polled status is clear. -/
  | header (d c : Byte) (L : Word) (hi : i = .prog d L) (hr : s.resolve d = some c)
      (hb : pollBusy s.nextAnswer = false) :
      ExecNext i s { s.completed (Config.cfgStartSeq.map (CfgOp.event c) ++
          [.scReadIr c, .scWriteIr c Config.irCfgIn, .emit [Config.ackReady]]) 1 2 with
        remaining := L, phase := .headerReceived }
  /-- A chunk that is not the last. -/
  | chunk (d c : Byte) (data : List Byte) (hi : i = .chunk d data) (hr : s.resolve d = some c)
      (hp : (s.phase = .headerReceived ∧ 32 ≤ s.remaining.toNat) ∨
        (s.phase = .streaming ∧ 32 < s.remaining.toNat)) :
      ExecNext i s { s.completed (chunkEvents c data) 0 2 with
        remaining := s.remaining - 32, phase := .streaming }
  /-- The last chunk. -/
  | final (d c : Byte) (data : List Byte) (hi : i = .chunk d data) (hr : s.resolve d = some c)
      (hp : s.phase = .streaming) (hl : s.remaining.toNat ≤ 32) :
      ExecNext i s { s.completed [.scWriteDr c data (8 * s.remaining.toNat) true,
          .scWriteIr c Config.irJstart, .scRun c 16, .scReadIr c, .emit [resultByte s.nextAnswer]] 1 0
        with remaining := 0, phase := .idle }

/-- A consumed command that changes neither marks nor configuration. -/
theorem ExecNext.plain {i : Instr} {s : State} (events : List Event) (bytes : List Byte) (n : Nat)
    (hi : (∀ d L, i ≠ .prog d L) ∧ ∀ d data, i ≠ .chunk d data)
    (hr : ∀ d, resolvedByte i = some d → ∃ c, s.resolve d = some c)
    (he : ∀ e ∈ events, e.isEmit = false ∧ e.opensShift = false)
    (hl : i.wf = true → events.length ≤ 62) :
    ExecNext i s (s.completed (events ++ [.emit bytes]) n 0) := by
  have h := ExecNext.done (i := i) (s := s) events bytes n s.capped s.configured hi hr he hl
    (.inl rfl) (.inl rfl)
  have hs : ({ s.completed (events ++ [.emit bytes]) n 0 with
      capped := s.capped, configured := s.configured } : State) =
      s.completed (events ++ [.emit bytes]) n 0 := by
    simp [State.completed, State.did, State.consume, State.takeAnswers_eq]
  rwa [hs] at h

theorem onDevice_next {i : Instr} {s t : State} {d : Byte}
    {body : Byte → Host.Outcome State Fault Refusal} (hi : resolvedByte i = some d)
    (h : onDevice d s body = .next t)
    (hb : ∀ c, s.resolve d = some c → body c = .next t → ExecNext i s t) : ExecNext i s t := by
  cases hr : s.resolve d with
  | none =>
    rw [onDevice_none hr, raiseFault] at h
    cases h
    exact .unassigned d hi hr
  | some c => exact hb c hr (by rwa [onDevice_some hr] at h)

theorem respond_next {bytes : List Byte} {keep n : Nat} {es : List Event} {s t : State}
    (h : respond bytes keep (s.did es n) = .next t) :
    t = s.completed (es ++ [.emit bytes]) n keep := by
  rw [respond_did] at h
  cases h
  rfl

theorem respond_next_at_once {bytes : List Byte} {keep : Nat} {s t : State}
    (h : respond bytes keep s = .next t) : t = s.completed ([] ++ [.emit bytes]) 0 keep :=
  respond_next (by rwa [State.did_nil])

theorem length_writeEvents (c : Byte) (a : Nat) (ws : List Word) :
    (writeEvents c a ws).length = 3 * ws.length := by
  induction ws generalizing a with
  | nil => rfl
  | cons w ws ih => simp [writeEvents, ih]; omega

theorem writeEvents_facts (c : Byte) (a : Nat) (ws : List Word) :
    ∀ e ∈ writeEvents c a ws, e.isEmit = false ∧ e.opensShift = false := by
  induction ws generalizing a with
  | nil => simp [writeEvents]
  | cons w ws ih =>
    intro e he
    simp only [writeEvents, List.cons_append, List.nil_append, List.mem_cons] at he
    rcases he with rfl | rfl | rfl | he
    · exact ⟨rfl, rfl⟩
    · exact ⟨rfl, rfl⟩
    · exact ⟨rfl, rfl⟩
    · exact ih _ e he

theorem length_pulseEvents (t : Fin 4) (n : Nat) : (pulseEvents t n).length = 3 * n := by
  simp [pulseEvents]; omega

theorem pulseEvents_facts (t : Fin 4) (n : Nat) :
    ∀ e ∈ pulseEvents t n, e.isEmit = false ∧ e.opensShift = false := by
  intro e he
  simp only [pulseEvents, List.mem_flatten, List.mem_replicate] at he
  obtain ⟨l, ⟨-, rfl⟩, he⟩ := he
  fin_cases he <;> exact ⟨rfl, rfl⟩

theorem configureEvents_facts (b : Bool) :
    (configureEvents b).length ≤ 12 ∧
      ∀ e ∈ configureEvents b, e.isEmit = false ∧ e.opensShift = false := by
  cases b <;> decide

theorem tripleOf_some {d : Byte} (h : ¬ tempDevices ≤ d.toNat) :
    tripleOf d = some ⟨d.toNat, Nat.lt_of_not_le h⟩ := by
  simp [tripleOf, Nat.lt_of_not_le h]

/-- The two temperature commands share their shape (46_commands.md rules R230 and R233). -/
theorem temperature_next {i : Instr} {s t : State} {d : Byte} {n : Nat} {bytes : BitVec 16 → List Byte}
    (hi : i = .temp d ∨ i = .temp16 d) (hn : n ≤ 16) (hd : ¬ tempDevices ≤ d.toNat)
    (h : respond (bytes (readTemperature d n s).1) 0 (readTemperature d n s).2 = .next t) :
    ExecNext i s t := by
  rw [readTemperature_eq (tripleOf_some hd)] at h
  have ht : t = { s.completed ((configureEvents s.configured ++
      [.gpioWrite (csPin ⟨d.toNat, Nat.lt_of_not_le hd⟩) false] ++
      pulseEvents ⟨d.toNat, Nat.lt_of_not_le hd⟩ n ++
      [.gpioWrite (csPin ⟨d.toNat, Nat.lt_of_not_le hd⟩) true]) ++
      [.emit (bytes (readingOf 0 (s.nextAnswers n)))]) n 0 with
      capped := s.capped, configured := true } := by
    cases h
    simp [State.completed, State.did, State.consume, State.record, State.takeAnswers_eq]
  rw [ht]
  refine .done _ _ _ _ _ ?_ ?_ ?_ ?_ (.inl rfl) (.inr ⟨d, hi⟩)
  · rcases hi with rfl | rfl <;> simp
  · rcases hi with rfl | rfl <;> simp [resolvedByte]
  · intro e he
    simp only [List.mem_append, List.mem_singleton] at he
    rcases he with ((he | rfl) | he) | rfl
    · exact (configureEvents_facts _).2 e he
    · exact ⟨rfl, rfl⟩
    · exact pulseEvents_facts _ _ e he
    · exact ⟨rfl, rfl⟩
  · intro _
    have h1 := (configureEvents_facts s.configured).1
    simp only [List.length_append, List.length_cons, List.length_nil, length_pulseEvents]
    omega

/-- What one poll iteration can do (44_bitstream.md rule R177). -/
theorem poll_next {c : Byte} {L : Word} {s t : State} (h : pollStatus c L s = .next t) :
    (pollBusy s.nextAnswer = true ∧
      t = { s.did [.scReadIr c] 1 with ctl := .polling c L, outcome := none }) ∨
    (pollBusy s.nextAnswer = false ∧
      t = { s.completed [.scReadIr c, .scWriteIr c Config.irCfgIn, .emit [Config.ackReady]] 1 2 with
        remaining := L, phase := .headerReceived }) := by
  rw [pollStatus_eq] at h
  split at h
  · rename_i hb; cases h; exact .inl ⟨hb, rfl⟩
  · rename_i hb; cases h; exact .inr ⟨by simpa [pollBusy] using hb, rfl⟩

theorem sub_toNat_of_le {v : Word} {k : Nat} (h : k ≤ v.toNat) :
    (v - BitVec.ofNat 32 k).toNat = v.toNat - k := by
  have hk : (BitVec.ofNat 32 k).toNat = k := by
    rw [BitVec.toNat_ofNat]
    exact Nat.mod_eq_of_lt (Nat.lt_of_le_of_lt h v.isLt)
  rw [BitVec.toNat_sub_of_le (by rw [BitVec.le_def, hk]; exact h), hk]

theorem firstChunk_next {d c : Byte} {data : List Byte} {s t : State} (hr : s.resolve d = some c)
    (hp : s.phase = .headerReceived) (h : firstChunk c data s = .next t) :
    ExecNext (.chunk d data) s t := by
  unfold firstChunk at h
  split at h
  · rename_i hl
    cases h
    exact .short d c data rfl hr hp hl
  · rename_i hl
    have ht : t = { s.completed (chunkEvents c data) 0 2 with
        remaining := s.remaining - 32, phase := .streaming } := by
      cases h
      simp [State.completed, State.did, State.consume, State.takeAnswers_eq, chunkEvents, scWriteDr,
        State.record, chunkBytes]
    rw [ht]
    exact .chunk d c data rfl hr (.inl ⟨hp, by simpa [chunkBytes] using hl⟩)

theorem laterChunk_next {d c : Byte} {data : List Byte} {s t : State} (hr : s.resolve d = some c)
    (hp : s.phase = .streaming) (h : laterChunk c data s = .next t) :
    ExecNext (.chunk d data) s t := by
  have hk : chunkLen .streaming s.remaining ≤ s.remaining.toNat := Nat.min_le_left _ _
  have hsub := sub_toNat_of_le hk
  by_cases hl : s.remaining.toNat ≤ 32
  · have hk32 : chunkLen .streaming s.remaining = s.remaining.toNat := Nat.min_eq_left hl
    have h0 : s.remaining - BitVec.ofNat 32 (chunkLen .streaming s.remaining) = 0 := by
      apply BitVec.eq_of_toNat_eq
      rw [hsub, hk32]
      simp
    have ht : t = { s.completed [.scWriteDr c data (8 * s.remaining.toNat) true,
          .scWriteIr c Config.irJstart, .scRun c 16, .scReadIr c, .emit [resultByte s.nextAnswer]] 1 0
        with remaining := 0, phase := .idle } := by
      simp only [laterChunk, h0, if_true, finishTransfer, irStatus_eq] at h
      cases h
      simp [State.completed, State.did, State.consume, State.takeAnswers_eq, scWriteDr, scWriteIr, scRun,
        State.record, resultByte, finalStrobes, hk32]
      rfl
    rw [ht]
    exact .final d c data rfl hr hp hl
  · have hk32 : chunkLen .streaming s.remaining = 32 := Nat.min_eq_right (Nat.le_of_not_le hl)
    have hne : s.remaining - BitVec.ofNat 32 (chunkLen .streaming s.remaining) ≠ 0 := by
      intro h0
      rw [h0, hk32] at hsub
      simp at hsub
      omega
    have ht : t = { s.completed (chunkEvents c data) 0 2 with
        remaining := s.remaining - 32, phase := .streaming } := by
      simp only [laterChunk, if_neg hne] at h
      cases h
      simp [State.completed, State.did, State.consume, State.takeAnswers_eq, chunkEvents, scWriteDr,
        State.record, hk32, hp]
      rw [hk32] at hne
      simpa using hne
    rw [ht]
    exact .chunk d c data rfl hr (.inr ⟨hp, Nat.lt_of_not_le hl⟩)

/-- What a command can do. -/
theorem exec_next {i : Instr} {s t : State} (h : exec i s = .next t) : ExecNext i s t := by
  have hone : ∀ {d c : Byte}, resolvedByte i = some d → s.resolve d = some c →
      ∀ d', resolvedByte i = some d' → ∃ c, s.resolve d' = some c := by
    intro d c hd hc d' hd'
    rw [hd] at hd'
    cases hd'
    exact ⟨c, hc⟩
  cases i with
  | ping d =>
    rw [respond_next_at_once h]
    exact .plain [] _ 0 (by simp) (by simp [resolvedByte]) (by simp) (by simp)
  | version d =>
    rw [respond_next_at_once h]
    exact .plain [] _ 0 (by simp) (by simp [resolvedByte]) (by simp) (by simp)
  | devcount d =>
    rw [respond_next_at_once h]
    exact .plain [] _ 0 (by simp) (by simp [resolvedByte]) (by simp) (by simp)
  | idcode d =>
    refine onDevice_next rfl h fun c hc hb => ?_
    simp only [readCode_eq] at hb
    rw [respond_next hb]
    exact .plain _ _ _ (by simp) (hone rfl hc) (by simp [Event.isEmit, Event.opensShift]) (by simp)
  | usercode d =>
    refine onDevice_next rfl h fun c hc hb => ?_
    simp only [readCode_eq] at hb
    rw [respond_next hb]
    exact .plain _ _ _ (by simp) (hone rfl hc) (by simp [Event.isEmit, Event.opensShift]) (by simp)
  | prog d L =>
    refine onDevice_next rfl h fun c hc hb => ?_
    rw [issueStart_eq] at hb
    have ha : (s.did (Config.cfgStartSeq.map (CfgOp.event c)) 0).nextAnswer = s.nextAnswer := rfl
    rcases poll_next hb with ⟨hbusy, ht⟩ | ⟨hbusy, ht⟩
    · rw [ha] at hbusy
      rw [State.did_did] at ht
      rw [ht]
      exact .waits d c L rfl hc hbusy
    · rw [ha] at hbusy
      rw [State.completed, State.did_did] at ht
      rw [ht]
      exact .header d c L rfl hc hbusy
  | setclk d r =>
    refine onDevice_next rfl h fun c hc hb => ?_
    obtain ⟨h5, -, -⟩ := State.resolve_eq_some.mp hc
    have ht : t = { s.completed ([.scWriteIr c Config.irUser,
        .scWriteDr c (writePayload (Config.regClockWr.setWidth 8) (clockValue r)) 38 true, .scRun c 1] ++
        [.emit [clockReply r]]) 0 0 with
        capped := s.capped.set d.toNat (clockClamped r), configured := s.configured } := by
      rw [writeRegister_eq] at hb
      rw [respond_next hb]
      simp [State.completed, State.did, State.consume, State.takeAnswers_eq, State.setCapped, h5]
    rw [ht]
    exact .done _ _ _ _ _ (by simp) (hone rfl hc) (by simp [Event.isEmit, Event.opensShift]) (by simp)
      (.inr ⟨d, r, _, h5, rfl, rfl⟩) (.inl rfl)
  | getclk d =>
    refine onDevice_next rfl h fun c hc hb => ?_
    simp only [readRegister_eq] at hb
    rw [respond_next hb]
    exact .plain _ _ _ (by simp) (hone rfl hc) (by simp [Event.isEmit, Event.opensShift]) (by simp)
  | work d ws =>
    refine onDevice_next rfl h fun c hc hb => ?_
    rw [writeWords_eq] at hb
    rw [respond_next hb]
    refine .plain _ _ _ (by simp) (hone rfl hc) (writeEvents_facts _ _ _) fun hw => ?_
    have hw : ws.length = 11 := by simpa [Instr.wf] using hw
    rw [length_writeEvents, hw]
    decide
  | result d =>
    refine onDevice_next rfl h fun c hc hb => ?_
    simp only [readRegister_eq] at hb
    rw [respond_next hb]
    exact .plain _ _ _ (by simp) (hone rfl hc) (by simp [Event.isEmit, Event.opensShift]) (by simp)
  | temp d =>
    simp only [exec, execTemp] at h
    split at h
    · rw [respond_next_at_once h]
      exact .plain [] _ 0 (by simp) (by simp [resolvedByte]) (by simp) (by simp)
    · rename_i hd
      exact temperature_next (bytes := fun v => [Config.coarseByte (v.setWidth 9)]) (.inl rfl)
        (by decide) hd h
  | wreg d a v =>
    refine onDevice_next rfl h fun c hc hb => ?_
    rw [writeRegister_eq] at hb
    rw [respond_next hb]
    exact .plain _ _ _ (by simp) (hone rfl hc) (by simp [Event.isEmit, Event.opensShift]) (by simp)
  | rreg d a =>
    refine onDevice_next rfl h fun c hc hb => ?_
    simp only [readRegister_eq] at hb
    rw [respond_next hb]
    exact .plain _ _ _ (by simp) (hone rfl hc) (by simp [Event.isEmit, Event.opensShift]) (by simp)
  | temp16 d =>
    simp only [exec, execTemp16] at h
    split at h
    · rw [respond_next_at_once h]
      exact .plain [] _ 0 (by simp) (by simp [resolvedByte]) (by simp) (by simp)
    · rename_i hd
      exact temperature_next (bytes := fun v => [v.extractLsb' 0 8, v.extractLsb' 8 8]) (.inr rfl)
        (by decide) hd h
  | auxshift d n p =>
    refine onDevice_next rfl h fun c hc hb => ?_
    simp only [auxShift_eq] at hb
    rw [respond_next hb]
    exact .plain _ _ _ (by simp) (hone rfl hc) (by simp [Event.isEmit, Event.opensShift]) (by simp)
  | chunk d data =>
    refine onDevice_next rfl h fun c hc hb => ?_
    split at hb
    · cases hb
    · rename_i hp; exact firstChunk_next hc hp hb
    · rename_i hp; exact laterChunk_next hc hp hb

end Sys2Proof.Machine
end

