-- ==== Sys2Proof/Laws/PerInstr.lean ====
section
/-!
SUPPORT. Families of statements made for each command. FrameLength: the minimum length of an encoded
command, in a phase that reads it, is the number of bytes it has (30_encoding.md rules R72 and R75).
-/

/-- The frame of `i` is ready exactly with its last byte. -/
def Sys2Proof.Laws.FrameLength.Statement (i : Sys2Proof.Instr) : Prop :=
  ∀ ph rem, i.wf = true → i.fits ph rem →
    Sys2Proof.minLen ph rem (Sys2Proof.encode i) = some (Sys2Proof.encode i).length

namespace Sys2Proof.Laws.FrameLength

@[simp] theorem length_le4 (v : Word) : (le4 v).length = 4 := rfl

@[simp] theorem length_flatMap_le4 (ws : List Word) : (ws.flatMap le4).length = 4 * ws.length := by
  induction ws with
  | nil => rfl
  | cons w ws ih => simp [ih]; omega

theorem ping (d : Byte) : Statement (.ping d) := fun _ _ _ _ => rfl
theorem version (d : Byte) : Statement (.version d) := fun _ _ _ _ => rfl
theorem devcount (d : Byte) : Statement (.devcount d) := fun _ _ _ _ => rfl
theorem idcode (d : Byte) : Statement (.idcode d) := fun _ _ _ _ => rfl
theorem usercode (d : Byte) : Statement (.usercode d) := fun _ _ _ _ => rfl
theorem prog (d : Byte) (length : Word) : Statement (.prog d length) := by
  rintro ph rem - h
  obtain rfl : ph = .idle := h
  rfl
theorem setclk (d : Byte) (request : Word) : Statement (.setclk d request) := fun _ _ _ _ => rfl
theorem getclk (d : Byte) : Statement (.getclk d) := fun _ _ _ _ => rfl
theorem work (d : Byte) (words : List Word) : Statement (.work d words) := by
  rintro ph rem h -
  have h : words.length = 11 := by simpa [Instr.wf] using h
  simp [encode, minLen, h]
theorem result (d : Byte) : Statement (.result d) := fun _ _ _ _ => rfl
theorem temp (d : Byte) : Statement (.temp d) := fun _ _ _ _ => rfl
theorem wreg (d addr : Byte) (value : Word) : Statement (.wreg d addr value) := fun _ _ _ _ => rfl
theorem rreg (d addr : Byte) : Statement (.rreg d addr) := fun _ _ _ _ => rfl
theorem temp16 (d : Byte) : Statement (.temp16 d) := fun _ _ _ _ => rfl
theorem auxshift (d bits : Byte) (payload : List Byte) : Statement (.auxshift d bits payload) := by
  rintro ph rem h -
  have h : payload.length = ceil8 bits.toNat := by simpa [Instr.wf] using h
  have h3 : ¬ (encode (.auxshift d bits payload)).length < 3 := by simp [encode]
  refine (if_neg (α := Option Nat) (t := some 3) h3).trans ?_
  simp [encode, h]
  omega
theorem chunk (d : Byte) (data : List Byte) : Statement (.chunk d data) := by
  rintro ph rem - ⟨hp, hl⟩
  simp [encode, minLen, hp, hl]
  omega

end Sys2Proof.Laws.FrameLength
end

