-- ==== Sys2Proof/Laws/Step.lean ====
section
/-!
SUPPORT. What a step can do, said once: `step_next`. Later proofs cite it, and `exec_next` for the step
that runs a command.
-/

namespace Sys2Proof.Machine

/-- An unfaulted sequencer whose next input is no power-on goes on with its thread of control. -/
theorem step_of_running {s : State} (hf : s.fault = none) (hp : s.host.head? ≠ some .powerOn) :
    step s = stepRunning s := by
  unfold step advance
  split
  · rename_i h; simp [h] at hp
  · rw [hf]

/-- A ready sequencer given a byte handles it (45_dispatcher.md rule R208). -/
theorem step_byte {s : State} {b : Byte} {rest : List HostInput} (hf : s.fault = none)
    (hc : s.ctl = .ready) (hh : s.host = .byte b :: rest) :
    step s = onByte b { s with host := rest } := by
  rw [step_of_running hf (by simp [hh])]
  simp only [stepRunning, hc, stepReady, hh]

theorem stepRunning_discovery {s : State} (hc : s.ctl = .discovery) :
    stepRunning s = .next (discover s.dropPause) := by simp only [stepRunning, hc]

theorem stepRunning_polling {s : State} {c : Byte} {L : Word} (hc : s.ctl = .polling c L) :
    stepRunning s = pollStatus c L s.dropPause := by simp only [stepRunning, hc]

theorem stepRunning_ready {s : State} (hc : s.ctl = .ready) : stepRunning s = stepReady s := by
  simp only [stepRunning, hc]

/-- `dropPause` changes the input queue only. -/
theorem State.dropPause_eq (s : State) : ∃ h, s.dropPause = { s with host := h } := by
  unfold State.dropPause
  split
  · exact ⟨_, rfl⟩
  · exact ⟨s.host, rfl⟩

/-- Every way a step answers a next state. -/
inductive StepNext (s : State) : State → Prop where
  /-- Power-on. -/
  | powerOn (rest : List HostInput) (hh : s.host = .powerOn :: rest) :
      StepNext s ({ s with host := rest } : State).processReset
  /-- A new connection, in a faulted or a ready state. -/
  | connect (rest : List HostInput) (hh : s.host = .connect :: rest)
      (hc : s.fault ≠ none ∨ s.ctl = .ready) : StepNext s ({ s with host := rest } : State).sessionReset
  /-- Discovery. -/
  | discovered (h : List HostInput) (hf : s.fault = none) (hc : s.ctl = .discovery)
      (hp : s.host.head? ≠ some .powerOn) : StepNext s (discover { s with host := h })
  /-- A poll iteration that stays in the poll. -/
  | polled (h : List HostInput) (c : Byte) (L : Word) (hf : s.fault = none) (hc : s.ctl = .polling c L)
      (hp : s.host.head? ≠ some .powerOn) (hb : pollBusy s.nextAnswer = true) :
      StepNext s { ({ s with host := h } : State).did [.scReadIr c] 1 with
        ctl := .polling c L, outcome := none }
  /-- A poll iteration that ends the poll and completes the header. -/
  | headerDone (h : List HostInput) (c : Byte) (L : Word) (hf : s.fault = none)
      (hc : s.ctl = .polling c L) (hp : s.host.head? ≠ some .powerOn)
      (hb : pollBusy s.nextAnswer = false) :
      StepNext s { ({ s with host := h } : State).completed
          [.scReadIr c, .scWriteIr c Config.irCfgIn, .emit [Config.ackReady]] 1 2 with
        remaining := L, phase := .headerReceived }
  /-- Nothing to take. -/
  | idle (h : List HostInput) (hf : s.fault = none) (hc : s.ctl = .ready)
      (hp : s.host.head? ≠ some .powerOn) : StepNext s { s with host := h, outcome := none }
  /-- A byte into a full buffer. -/
  | overflow (b : Byte) (rest : List HostInput) (hf : s.fault = none) (hc : s.ctl = .ready)
      (hh : s.host = .byte b :: rest) (hl : s.len = Config.frameCap) :
      StepNext s { s with host := rest, fault := some .frameOverflow, outcome := none }
  /-- A byte that leaves the frame unready. -/
  | needMore (b : Byte) (rest : List HostInput) (F : List Byte) (e : DecodeError) (hf : s.fault = none)
      (hc : s.ctl = .ready) (hh : s.host = .byte b :: rest) (hl : s.len ≠ Config.frameCap)
      (hF : (s.append b).frameBytes? = some F) (hd : decode s.phase s.remaining F = .error e) :
      StepNext s { ({ s with host := rest } : State).append b with outcome := some .needMore }
  /-- A byte that completes a frame, whose command answers a next state. -/
  | ran (b : Byte) (rest : List HostInput) (F : List Byte) (i : Instr) (t : State) (hf : s.fault = none)
      (hc : s.ctl = .ready) (hh : s.host = .byte b :: rest) (hl : s.len ≠ Config.frameCap)
      (hF : (s.append b).frameBytes? = some F) (hd : decode s.phase s.remaining F = .ok i)
      (ht : ExecNext i (({ s with host := rest } : State).append b) t) : StepNext s t

/-- What a step can do. -/
theorem step_next {s t : State} (h : step s = .next t) : StepNext s t := by
  by_cases hp : s.host.head? = some .powerOn
  · obtain ⟨rest, hh⟩ : ∃ rest, s.host = .powerOn :: rest := by
      cases hs : s.host with
      | nil => simp [hs] at hp
      | cons x rest => simp [hs] at hp; exact ⟨rest, by rw [hp]⟩
    simp only [step, advance, hh] at h
    cases h
    exact .powerOn rest hh
  cases hf : s.fault with
  | some code =>
    unfold step advance at h
    split at h
    · rename_i hh; simp [hh] at hp
    · simp only [hf] at h
      unfold stepFaulted at h
      split at h
      · rename_i rest hh
        cases h
        exact .connect rest hh (.inl (by simp [hf]))
      · cases h
  | none =>
    rw [step_of_running hf hp] at h
    obtain ⟨h', hdrop⟩ := s.dropPause_eq
    cases hc : s.ctl with
    | discovery =>
      rw [stepRunning_discovery hc, hdrop] at h
      cases h
      exact .discovered h' hf hc hp
    | polling c L =>
      rw [stepRunning_polling hc, hdrop] at h
      rcases poll_next h with ⟨hb, ht⟩ | ⟨hb, ht⟩
      · rw [ht]; exact .polled h' c L hf hc hp hb
      · rw [ht]; exact .headerDone h' c L hf hc hp hb
    | ready =>
      rw [stepRunning_ready hc, stepReady] at h
      split at h
      · rename_i b rest hh
        unfold onByte at h
        split at h
        · rename_i hl
          cases h
          exact .overflow b rest hf hc hh hl
        · rename_i hl
          have hfb : (({ s with host := rest } : State).append b).frameBytes? =
              (s.append b).frameBytes? := rfl
          unfold runFrame at h
          rw [hfb] at h
          cases hF : (s.append b).frameBytes? with
          | none => simp [hF] at h
          | some F =>
            simp only [hF, State.append_phase, State.append_remaining] at h
            cases hd : decode s.phase s.remaining F with
            | error e =>
              simp only [hd] at h
              cases h
              exact .needMore b rest F e hf hc hh hl hF hd
            | ok i =>
              simp only [hd] at h
              exact .ran b rest F i t hf hc hh hl hF hd (exec_next h)
      · rename_i rest hh
        cases h
        exact .connect rest hh (.inr hc)
      · cases h
        rw [hdrop]
        exact .idle h' hf hc hp

/-! ### Discovery -/

/-- Discovery touches the Device Table, the answers and the record only. -/
theorem probeFrom_frame (k c : Nat) (s : State) :
    ∃ evs n p cnt, (∀ e ∈ evs, e.isEmit = false ∧ e.opensShift = false) ∧
      probeFrom k c s = { s.did evs n with pos := p, count := cnt } := by
  induction k generalizing c s with
  | zero =>
    refine ⟨[], 0, s.pos, s.count, by simp, ?_⟩
    rw [State.did_nil]
    rfl
  | succ k ih =>
    unfold probeFrom
    split
    · refine ⟨[], 0, s.pos, s.count, by simp, ?_⟩
      rw [State.did_nil]
    · have hp : scProbe (BitVec.ofNat 8 c) s =
          (s.nextAnswer.getLsbD 0, s.did [.scProbe (BitVec.ofNat 8 c)] 1) := by
        simp only [scProbe, State.record_eq_did, State.takeAnswer_did]
        rfl
      simp only [hp]
      have ha : ∃ p cnt, (if s.nextAnswer.getLsbD 0 = true then
          (s.did [.scProbe (BitVec.ofNat 8 c)] 1).addSlot (BitVec.ofNat 8 c)
          else s.did [.scProbe (BitVec.ofNat 8 c)] 1) =
          { s.did [.scProbe (BitVec.ofNat 8 c)] 1 with pos := p, count := cnt } := by
        split
        · unfold State.addSlot
          split
          · exact ⟨_, _, rfl⟩
          · exact ⟨_, _, rfl⟩
        · exact ⟨_, _, rfl⟩
      obtain ⟨p, cnt, ha⟩ := ha
      obtain ⟨evs, n, p', cnt', he, hr⟩ := ih (c + 1)
        { s.did [.scProbe (BitVec.ofNat 8 c)] 1 with pos := p, count := cnt }
      refine ⟨.scProbe (BitVec.ofNat 8 c) :: evs, 1 + n, p', cnt', ?_, ?_⟩
      · intro e he'
        rcases List.mem_cons.mp he' with rfl | h
        · exact ⟨rfl, rfl⟩
        · exact he e h
      · rw [ha, hr]
        have := State.did_did [.scProbe (BitVec.ofNat 8 c)] evs 1 n s
        simp only [List.cons_append, List.nil_append] at this
        rw [← this]
        simp [State.did, State.takeAnswers_eq]

/-- Discovery leaves the session, the configuration flag and the fault alone and ends ready. -/
theorem discover_frame (s : State) :
    ∃ evs n p cnt, (∀ e ∈ evs, e.isEmit = false ∧ e.opensShift = false) ∧
      discover s = { s.did evs n with
        pos := p, capped := State.reset.capped, count := cnt, ctl := .ready, outcome := none } := by
  obtain ⟨evs, n, p, cnt, he, hr⟩ :=
    probeFrom_frame (scChains s.clearTable).1.toNat 0 (scChains s.clearTable).2
  refine ⟨.scChains :: evs, 1 + n, p, cnt, ?_, ?_⟩
  · intro e he'
    rcases List.mem_cons.mp he' with rfl | h
    · exact ⟨rfl, rfl⟩
    · exact he e h
  · have hc : (scChains s.clearTable).2 = s.clearTable.did [.scChains] 1 := by
      simp only [scChains, State.record_eq_did, State.takeAnswer_did]
    rw [show discover s = { probeFrom (scChains s.clearTable).1.toNat 0 (scChains s.clearTable).2 with
        ctl := .ready
        outcome := none } from rfl, hr, hc]
    have := State.did_did [.scChains] evs 1 n s.clearTable
    simp only [List.cons_append, List.nil_append] at this
    rw [this]
    simp [State.did, State.takeAnswers_eq, State.clearTable]

end Sys2Proof.Machine
end

