-- ==== Sys2Proof/Tests/Slice0.lean ====
section
/-!
SUPPORT. Tests of the model against the spec's own vectors (95_test_vectors.md, the examples of the rules),
and for every obligation with hypotheses a concrete state and operands that meet them. No expected value
here is the model's own output.
-/

namespace Sys2Proof.Machine

/-! ### Helpers -/

/-- Discovery over: chains 1 and 2 fill slots 0 and 1 (95_test_vectors.md part 3). -/
def readyState : State :=
  { State.reset with ctl := .ready, pos := #v[1, 2, 0xFF, 0xFF, 0xFF], count := 2 }

/-- That state with bytes to come. -/
def fed (bytes : List Byte) : State := { readyState with host := bytes.map .byte }

/-- That state with scripted answers. -/
def answered (answers : List Byte) : State := { readyState with answers := answers }

/-- A transfer in its Streaming phase, the header of device 0 retained. -/
def streamingState (remaining : Word) : State :=
  { readyState with
    frame := [(0, 0x05), (1, 0x00)]
    len := 2
    phase := .streaming
    remaining := remaining }

/-- A transfer whose header has been received. -/
def headerState (remaining : Word) : State := { streamingState remaining with phase := .headerReceived }

/-- A header in its status poll. -/
def pollingState (answers : List Byte) : State :=
  { readyState with
    frame := [(0, 0x05), (1, 0x00), (2, 0x40), (3, 0x00), (4, 0x00), (5, 0x00)]
    len := 6
    ctl := .polling 1 64
    answers := answers }

/-- A property of the next state, false where there is none. -/
def nextIs (p : State → Bool) : Host.Outcome State Fault Refusal → Bool
  | .next t => p t
  | .fault _ => false
  | .refused _ => false

/-- The bytes, bit counts and last flags of the data-register writes. -/
def sentData : List Event → List (List Byte × Nat × Bool)
  | [] => []
  | .scWriteDr _ buf n last :: rest => (buf, n, last) :: sentData rest
  | _ :: rest => sentData rest

/-! ### Well-formedness -/

theorem test_wf_refuses_work_of_ten_words : (Instr.work 0 (List.replicate 10 0)).wf = false := by decide
theorem test_wf_refuses_auxshift_short_of_a_byte : (Instr.auxshift 0 9 [0xAB]).wf = false := by decide
theorem test_wf_refuses_chunk_of_33_bytes : (Instr.chunk 0 (List.replicate 33 0)).wf = false := by decide
theorem test_wf_accepts_auxshift_of_two_bytes : (Instr.auxshift 0 9 [0xAB, 0x01]).wf = true := by decide

/-! ### Decoding: each row's bytes written out from 30_encoding.md rule R72 -/

theorem test_decode_ping : decode .idle 0 [0x00, 0x05] = .ok (.ping 5) := by decide
theorem test_decode_version : decode .idle 0 [0x01, 0x00] = .ok (.version 0) := by decide
theorem test_decode_devcount : decode .idle 0 [0x02, 0x00] = .ok (.devcount 0) := by decide
theorem test_decode_idcode : decode .idle 0 [0x03, 0x01] = .ok (.idcode 1) := by decide
theorem test_decode_usercode : decode .idle 0 [0x04, 0x02] = .ok (.usercode 2) := by decide
theorem test_decode_prog :
    decode .idle 0 [0x05, 0x00, 0x40, 0x00, 0x00, 0x00] = .ok (.prog 0 64) := by decide
theorem test_decode_setclk :
    decode .idle 0 [0x06, 0x01, 0xFF, 0x02, 0x03, 0x04] = .ok (.setclk 1 0x040302FF) := by decide
theorem test_decode_getclk : decode .idle 0 [0x07, 0x01] = .ok (.getclk 1) := by decide
theorem test_decode_work :
    decode .idle 0 ([0x08, 0x00, 0x78, 0x56, 0x34, 0x12] ++ List.replicate 39 0 ++ [0x80]) =
      .ok (.work 0 ([0x12345678] ++ List.replicate 9 0 ++ [0x80000000])) := by decide
theorem test_decode_result : decode .idle 0 [0x09, 0x01] = .ok (.result 1) := by decide
theorem test_decode_temp : decode .idle 0 [0x0A, 0x04] = .ok (.temp 4) := by decide
theorem test_decode_wreg :
    decode .idle 0 [0x0B, 0x00, 0x01, 0x78, 0x56, 0x34, 0x12] = .ok (.wreg 0 1 0x12345678) := by decide
theorem test_decode_rreg : decode .idle 0 [0x0C, 0x01, 0x02] = .ok (.rreg 1 2) := by decide
theorem test_decode_temp16 : decode .idle 0 [0x0D, 0x07] = .ok (.temp16 7) := by decide
theorem test_decode_auxshift :
    decode .idle 0 [0x0E, 0x00, 0x0C, 0xAB, 0x0C] = .ok (.auxshift 0 12 [0xAB, 0x0C]) := by decide
theorem test_decode_chunk :
    decode .streaming 2 [0x05, 0x01, 0xAA, 0xBB] = .ok (.chunk 1 [0xAA, 0xBB]) := by decide
theorem test_decode_waits_for_the_auxshift_length :
    decode .idle 0 [0x0E, 0x00] = .error (.incomplete 2 3) ∧
      decode .idle 0 [0x0E, 0x00, 0x0C, 0xAB] = .error (.incomplete 4 5) := by decide
theorem test_decode_refuses_unrecognized_and_empty :
    decode .idle 0 (0x0F :: List.replicate 45 0) = .error (.unrecognized 0x0F) ∧
      decode .streaming 0 [0xFF] = .error (.unrecognized 0xFF) ∧ decode .idle 0 [] = .error .empty := by
  decide
theorem test_decodeTableWord_reads_byte_0_from_the_low_bits :
    decodeTableWord 56 0x1234567801000B = some (.wreg 0 1 0x12345678) ∧
      decodeTableWord 16 0x050F = none := by decide

/-! ### The bit codec (95_test_vectors.md sections 2.1 to 2.3) -/

theorem test_packBits : packBits 0x12345678 32 = [0x1E, 0x6A, 0x2C, 0x48] ∧
    packBits 0x100 9 = [0x00, 0x80] ∧ packBits 0xFF 5 = [0xF8] ∧ packBits 0x1234 16 = [0x2C, 0x48] := by
  decide
theorem test_unpackBits : unpackBits [0x12, 0x34, 0x56, 0x78] 32 = 0x78563412 ∧
    unpackBits [0xFF] 6 = 0x3F ∧ unpackBits [0x34, 0x12] 16 = 0x1234 := by decide
theorem test_unpack_of_pack : unpackBits (packBits 0xDEADBEEF 32) 32 = 0x7BB57DF7 := by decide
theorem test_reverseBitOrder : reverseBitOrder [0x01, 0x02, 0xF0, 0x12] 32 = [0x80, 0x40, 0x0F, 0x48] ∧
    reverseBitOrder [0x01, 0x03] 12 = [0x80, 0x03] ∧ reverseBitOrder [0x01] 7 = [0x01] := by decide
theorem test_applyOddParity : applyOddParity [0x40] 5 = [0x44] ∧ applyOddParity [0xF8] 5 = [0xFC] ∧
    applyOddParity [0x00] 5 = [0x00] ∧ applyOddParity [0xFF, 0x80] 9 = [0xFF, 0xC0] := by decide
theorem test_readPayload : readPayload 0x01 = [0x84] ∧ readPayload 0x10 = [0x0C] ∧
    readPayload 0x25 = [0xA0] ∧ readPayload 0xFF = [0xFC] := by decide
theorem test_writePayload : writePayload 0x01 0x12345678 = [0x1E, 0x6A, 0x2C, 0x48, 0x8C] ∧
    writePayload 0x0F 0xFFFFFFFF = [0xFF, 0xFF, 0xFF, 0xFF, 0xFC] := by decide +kernel
theorem test_writePayload_drops_address_bit_4 :
    writePayload 0x11 0xDEADBEEF = [0xF7, 0x7D, 0xB5, 0x7B, 0x88] ∧
      writePayload 0x1F 0x00000001 = [0x80, 0x00, 0x00, 0x00, 0xF8] := by decide +kernel
theorem test_rb4 : rb4 0x041D0093 = [0xC9, 0x00, 0xB8, 0x20] ∧ rb4 0x0A0B0C0D = [0xB0, 0x30, 0xD0, 0x50] := by
  decide

/-! ### Commands (95_test_vectors.md sections 2.6 and 2.7, each rule's example) -/

theorem test_ping : nextIs (fun t => sentBytes t.trace == [0x00] && t.len == 0)
    (exec (.ping 5) { readyState with len := 2 }) = true := by decide
theorem test_version : nextIs (fun t => t.outcome == some .consumed && t.len == 0)
    (exec (.version 9) { readyState with len := 2 }) = true := by decide
theorem test_devcount : nextIs (fun t => sentBytes t.trace == [0x02])
    (exec (.devcount 0) readyState) = true := by decide
theorem test_idcode : nextIs (fun t => sentBytes t.trace == [0xC9, 0x00, 0xB8, 0x20])
    (exec (.idcode 0) (answered [0x93, 0x00, 0x1D, 0x04])) = true := by decide
theorem test_usercode : nextIs (fun t => sentBytes t.trace == [0x80, 0x00, 0x00, 0x01])
    (exec (.usercode 1) (answered [0x01, 0x00, 0x00, 0x80])) = true := by decide
theorem test_setclk_251_is_clamped : nextIs (fun t => sentBytes t.trace == [0x00] && t.isCapped 0)
    (exec (.setclk 0 251) readyState) = true := by decide +kernel
theorem test_clockValue : clockValue 251 = 50 ∧ clockValue 250 = 250 ∧ clockValue 0xFFFFFFFF = 50 := by
  decide
theorem test_setclk_250_clears_the_mark : nextIs (fun t => sentBytes t.trace == [0x01] && !t.isCapped 1)
    (exec (.setclk 1 250) (readyState.setCapped 1 true)) = true := by decide +kernel
theorem test_getclk : nextIs (fun t => sentBytes t.trace == [0x32, 0x00, 0x00, 0x00])
    (exec (.getclk 1) (answered [0x4C, 0x00, 0x00, 0x00])) = true := by decide +kernel
theorem test_work_writes_registers_1_to_11 : nextIs (fun t => sentBytes t.trace == [0x01] &&
      (sentData t.trace).map (fun x => x.1.getD 4 0) ==
        [0x88, 0x48, 0xCC, 0x28, 0xAC, 0x6C, 0xE8, 0x18, 0x9C, 0x5C, 0xD8])
    (exec (.work 0 (List.replicate 11 0)) readyState) = true := by decide +kernel
theorem test_result_of_a_capped_slot : nextIs (fun t => sentBytes t.trace == [0x48, 0x2C, 0x6A, 0x00])
    (exec (.result 0) ((answered [0x12, 0x34, 0x56, 0x78]).setCapped 0 true)) = true := by decide +kernel
theorem test_result_of_an_uncapped_slot : nextIs (fun t => sentBytes t.trace == [0x48, 0x2C, 0x6A, 0x1E])
    (exec (.result 0) ((answered [0x12, 0x34, 0x56, 0x78]).setCapped 1 true)) = true := by decide +kernel
/-- The first read of triple 0: 12 directions, 29 events of the read, one response (R152). -/
theorem test_temp_event_count : nextIs (fun t => t.trace.length == 42 && t.configured)
    (exec (.temp 0) (answered [0, 0, 0, 1, 1, 0, 0, 1, 0])) = true := by decide +kernel
theorem test_temp_of_no_triple : nextIs (fun t => t.trace == [.emit [0x00]] && !t.configured)
    (exec (.temp 4) readyState) = true := by decide
theorem test_temp16_low_byte_first : nextIs (fun t => sentBytes t.trace == [0x34, 0x12] && t.trace.length == 51)
    (exec (.temp16 2) { answered [0, 0, 0, 1, 0, 0, 1, 0, 0, 0, 1, 1, 0, 1, 0, 0] with
      configured := true }) = true := by decide +kernel
theorem test_wreg : nextIs (fun t => sentBytes t.trace == [0x01] &&
      sentData t.trace == [([0x1E, 0x6A, 0x2C, 0x48, 0x8C], 38, true)])
    (exec (.wreg 0 1 0x12345678) readyState) = true := by decide +kernel
theorem test_rreg : nextIs (fun t => sentBytes t.trace == [0x48, 0x2C, 0x6A, 0x1E] &&
      sentData t.trace == [([0x44], 6, true)])
    (exec (.rreg 0 2) (answered [0x12, 0x34, 0x56, 0x78])) = true := by decide +kernel
theorem test_auxshift_of_12_bits : nextIs (fun t => sentBytes t.trace == [0x02, 0x80, 0x03])
    (exec (.auxshift 0 12 [0xAB, 0x0C]) (answered [0x01, 0x03])) = true := by decide
theorem test_auxshift_of_no_bits : nextIs (fun t => sentBytes t.trace == [0x00])
    (exec (.auxshift 0 0 []) readyState) = true := by decide
/-- 95_test_vectors.md section 2.8, L = 33: the last chunk is one byte, with its last flag. -/
theorem test_chunk_last_of_33 : nextIs (fun t => sentData t.trace == [([0x7E], 8, true)] && t.len == 0)
    (exec (.chunk 0 [0x7E]) (streamingState 1)) = true := by decide
theorem test_chunk_first_of_16_faults : nextIs (fun t => t.fault == some .bitstreamShort && t.trace == [])
    (exec (.chunk 0 (List.replicate 32 0)) (headerState 16)) = true := by decide

/-! ### The dispatcher, the faults and the resets (sections 2.4 and 2.5) -/

theorem test_step_answers_need_more : nextIs (fun t => t.outcome == some .needMore && t.len == 1)
    (step (fed [0x0B])) = true := by decide
theorem test_step_faults_on_an_unfilled_slot : nextIs (fun t => t.fault == some .unassignedDevice &&
      t.len == 3 && t.trace == []) (runSteps 3 (fed [0x0C, 0x03, 0x01])) = true := by decide
theorem test_step_after_a_fault_stops :
    step { fed [0x00] with fault := some .frameOverflow } = .fault (.halted .frameOverflow) := rfl
/-- Chains 0 to 5 with the first four live: four slots, four probes (42_topology.md rule R140). -/
theorem test_discovery_of_six_chains : nextIs (fun t => t.pos == #v[0, 1, 2, 3, 0xFF] && t.count == 4 &&
      t.trace.length == 5) (step { State.reset with answers := [6, 1, 1, 1, 1, 1, 1] }) = true := by
  decide
theorem test_discovery_of_three_chains : nextIs (fun t => t.pos == #v[1, 2, 0xFF, 0xFF, 0xFF] &&
      t.count == 2 && t.trace.length == 4) (step { State.reset with answers := [3, 0, 1, 1] }) = true := by
  decide
theorem test_withFetchWord_runs_the_word : nextIs (fun t => sentBytes t.trace == [0x00])
    (step (State.reset.withFetchWord 16 0x0700)) = true := by decide

/-! ### Witnesses: for every obligation with hypotheses, a state and operands that meet them -/

theorem pollBusy_zero : pollBusy 0x00 = false := by simp [pollBusy]

theorem pollBusy_ones : pollBusy 0x3F = true := by
  have h : ∀ b : Fin 6, ((0x3F#8).setWidth 6).getLsbD b.val = true := by decide
  exact h _

theorem frameCap_ne_small {n : Nat} (h : n < 46) : n ≠ Config.frameCap := by
  unfold Config.frameCap
  omega

theorem frameOk_of_small {s : State} (m : Memory) (n : Nat) (hs : s.frame = m) (hn : s.len = n)
    (hw : Memory.wf m) (hb : ∀ e ∈ m, e.1 < 46) (hl : n ≤ 46)
    (hr : ∀ i, i < n → (Memory.read? m i).isSome) : FrameOk s := by
  subst hs hn
  exact ⟨hw, fun e he => by have := hb e he; unfold Config.frameCap; omega,
    by unfold Config.frameCap; omega, hr⟩

theorem tableOk_ready : TableOk readyState := ⟨by decide, by decide⟩

/-- One byte of a Ping is buffered. -/
def halfPing (host : List HostInput) : State := { readyState with
  frame := [(0, 0x00)]
  len := 1
  host := host }

theorem inv_halfPing (host : List HostInput) : Inv (halfPing host) where
  table := ⟨tableOk_ready.filled, tableOk_ready.rising⟩
  frame := frameOk_of_small [(0, 0x00)] 1 rfl rfl (by decide) (by decide) (by decide) (by decide)
  control := trivial
  transfer := fun h => absurd rfl h

theorem atRest_halfPing (host : List HostInput) : AtRest (halfPing host) := by
  intro _ _ F hF
  obtain rfl : [0x00] = F := by cases hF; rfl
  exact .inl ⟨.incomplete 1 2, rfl⟩

theorem frameOk_streaming (remaining : Word) : FrameOk (streamingState remaining) :=
  frameOk_of_small [(0, 0x05), (1, 0x00)] 2 rfl rfl (by decide) (by decide) (by decide) (by decide)

theorem inv_streaming (remaining : Word) (host : List HostInput) :
    Inv { streamingState remaining with host := host } where
  table := ⟨tableOk_ready.filled, tableOk_ready.rising⟩
  frame := ⟨(frameOk_streaming remaining).1, (frameOk_streaming remaining).2,
    (frameOk_streaming remaining).3, (frameOk_streaming remaining).4⟩
  control := trivial
  transfer := fun _ => ⟨rfl, Nat.le_refl 2, rfl, 0, 1, rfl, rfl⟩

theorem inv_polling (answers : List Byte) : Inv (pollingState answers) where
  table := ⟨tableOk_ready.filled, tableOk_ready.rising⟩
  frame := frameOk_of_small
    [(0, 0x05), (1, 0x00), (2, 0x40), (3, 0x00), (4, 0x00), (5, 0x00)] 6 rfl rfl
    (by decide) (by decide) (by decide) (by decide)
  control := ⟨rfl, rfl, 0, [0x05, 0x00, 0x40, 0x00, 0x00, 0x00], rfl, rfl, rfl⟩
  transfer := fun h => absurd rfl h

theorem tableOk_reset : TableOk State.reset := ⟨by decide, by decide⟩

theorem inv_reset (host : List HostInput) (answers : List Byte) :
    Inv { State.reset with host := host, answers := answers } where
  table := ⟨tableOk_reset.filled, tableOk_reset.rising⟩
  frame := frameOk_of_small [] 0 rfl rfl (by decide) (by decide) (by decide) (by decide)
  control := ⟨rfl, rfl, rfl, rfl⟩
  transfer := fun h => absurd rfl h

/-- Bytes 0xFF at `n` offsets from `a`. -/
def fullFrame : Nat → Nat → Memory
  | _, 0 => []
  | a, n + 1 => (a, 0xFF) :: fullFrame (a + 1) n

theorem read_fullFrame {a n i : Nat} (ha : a ≤ i) (hi : i < a + n) :
    Memory.read? (fullFrame a n) i = some 0xFF := by
  induction n generalizing a with
  | zero => omega
  | succ n ih =>
    rw [fullFrame, Memory.read?]
    split
    · rfl
    · exact ih (by omega) (by omega)

theorem offsets_fullFrame (a n : Nat) : (fullFrame a n).map Prod.fst = List.range' a n := by
  induction n generalizing a with
  | zero => rfl
  | succ n ih => simp [fullFrame, ih, List.range'_succ]

/-- An unrecognized opcode and bytes like it have filled the buffer. -/
def fullState (host : List HostInput) : State := { readyState with
  frame := fullFrame 0 Config.frameCap
  len := Config.frameCap
  host := host }

theorem inv_fullState (host : List HostInput) : Inv (fullState host) where
  table := ⟨tableOk_ready.filled, tableOk_ready.rising⟩
  frame := by
    refine ⟨?_, ?_, Nat.le_refl _, ?_⟩
    · show ((fullFrame 0 Config.frameCap).map Prod.fst).Pairwise (· < ·)
      rw [offsets_fullFrame]
      exact List.pairwise_lt_range'
    · intro e he
      have h : e.1 ∈ (fullFrame 0 Config.frameCap).map Prod.fst := List.mem_map_of_mem he
      rw [offsets_fullFrame, List.mem_range'_1] at h
      omega
    · intro i hi
      have h : i < 0 + Config.frameCap := by rw [Nat.zero_add]; exact hi
      rw [show (fullState host).frame = fullFrame 0 Config.frameCap from rfl,
        read_fullFrame (Nat.zero_le i) h]
      rfl
  control := trivial
  transfer := fun h => absurd rfl h

theorem atRest_fullState (host : List HostInput) : AtRest (fullState host) := by
  intro _ _ F hF
  obtain ⟨hl, hb⟩ := Memory.readRange?_eq_some.mp hF
  have h0 : 0 < F.length := by
    rw [hl, show (fullState host).len = Config.frameCap from rfl]
    unfold Config.frameCap
    omega
  have hc : 0 < Config.frameCap := by unfold Config.frameCap; omega
  have hx := hb 0 (hl ▸ h0)
  rw [show (fullState host).frame = fullFrame 0 Config.frameCap from rfl,
    read_fullFrame (Nat.le_refl 0) (by omega)] at hx
  obtain ⟨op, rest, rfl⟩ : ∃ op rest, F = op :: rest := by
    cases F with
    | nil => simp at h0
    | cons op rest => exact ⟨op, rest, rfl⟩
  obtain rfl : (0xFF : Byte) = op := by simpa using hx
  exact .inl ⟨.unrecognized 0xFF, rfl⟩

theorem witness_StepRunsDecodedCommand : ∃ (s : State) (b : Byte) (rest : List HostInput)
    (F : List Byte) (i : Instr), s.fault = none ∧ s.ctl = .ready ∧ s.host = .byte b :: rest ∧
    s.len ≠ Config.frameCap ∧ (({ s with host := rest } : State).append b).frameBytes? = some F ∧
    decode s.phase s.remaining F = .ok i :=
  ⟨halfPing [.byte 7], 7, [], [0x00, 7], .ping 7, rfl, rfl, rfl, frameCap_ne_small (by decide), rfl, rfl⟩

theorem witness_IncompleteFrameAnswersNeedMore : ∃ (s : State) (b : Byte) (rest : List HostInput)
    (F : List Byte) (e : DecodeError), s.fault = none ∧ s.ctl = .ready ∧ s.host = .byte b :: rest ∧
    s.len ≠ Config.frameCap ∧ (({ s with host := rest } : State).append b).frameBytes? = some F ∧
    decode s.phase s.remaining F = .error e :=
  ⟨fed [0x0B], 0x0B, [], [0x0B], .incomplete 1 7, rfl, rfl, rfl, frameCap_ne_small (by decide), rfl, rfl⟩

/-- Both clauses, at the capacity and one below it. -/
theorem witness_AppendStoresOneByteOrOverflows : ∃ s s' : State, s.len = Config.frameCap ∧
    s'.len + 1 = Config.frameCap ∧ s'.len ≠ Config.frameCap :=
  ⟨fullState [], { readyState with len := Config.frameCapBeyond + 45 }, rfl, rfl, by
    show Config.frameCapBeyond + 45 ≠ Config.frameCap
    unfold Config.frameCap
    omega⟩

theorem witness_OnlyUnrecognizedOpcodeOverflows : ∃ s t : State, Inv s ∧ AtRest s ∧ s.fault = none ∧
    step s = .next t ∧ t.fault = some .frameOverflow := by
  refine ⟨fullState [.byte 1], { fullState [] with fault := some .frameOverflow, outcome := none },
    inv_fullState _, atRest_fullState _, rfl, ?_, rfl⟩
  rw [step_byte (b := 1) (rest := []) rfl rfl rfl, onByte,
    if_pos (show ({ fullState [.byte 1] with host := [] } : State).len = Config.frameCap from rfl)]
  rfl

theorem witness_UnrecognizedOpcodeFillsThenOverflows : ∃ (s : State) (op extra : Byte)
    (bytes : List Byte) (rest : List HostInput), s.fault = none ∧ s.ctl = .ready ∧ s.len = 0 ∧
    0x0F ≤ op.toNat ∧ bytes.length + 1 = Config.frameCap ∧
    s.host = (op :: bytes).map HostInput.byte ++ .byte extra :: rest :=
  ⟨{ readyState with host :=
      (0x0F :: List.replicate (Config.frameCapBeyond + 45) 0x00).map HostInput.byte ++ [.byte 0x00] },
    0x0F, 0x00, List.replicate (Config.frameCapBeyond + 45) 0x00, [], rfl, rfl, rfl, by decide,
    by rw [List.length_replicate]; rfl, rfl⟩

theorem witness_CommandRunsAtMinimumLength : ∃ (s : State) (b : Byte) (F : List Byte) (i : Instr),
    Inv s ∧ AtRest s ∧ s.fault = none ∧ s.ctl = .ready ∧ (s.append b).frameBytes? = some F ∧
    decode s.phase s.remaining F = .ok i :=
  ⟨halfPing [], 7, [0x00, 7], .ping 7, inv_halfPing _, atRest_halfPing _, rfl, rfl, rfl, rfl⟩

/-- The exception of R178 occurs. -/
theorem witness_CommandRunsAtMinimumLength_of_32_bytes : ∃ (s : State) (b : Byte) (F : List Byte)
    (i : Instr), Inv s ∧ AtRest s ∧ s.fault = none ∧ s.ctl = .ready ∧
    (s.append b).frameBytes? = some F ∧ decode s.phase s.remaining F = .ok i ∧ F.length = 3 ∧
    minLen s.phase s.remaining F = some 2 :=
  ⟨streamingState 0, 0xEE, [0x05, 0x00, 0xEE], .chunk 0 [], inv_streaming 0 [],
    fun _ _ _ _ => .inr ⟨rfl, rfl, rfl⟩, rfl, rfl, rfl, rfl, rfl, rfl⟩

theorem witness_PingFedByteByByte : ∃ (s : State) (d : Byte) (rest : List HostInput), s.fault = none ∧
    s.ctl = .ready ∧ s.len = 0 ∧ s.host = .byte 0x00 :: .byte d :: rest :=
  ⟨fed [0x00, 0xFF], 0xFF, [], rfl, rfl, rfl, rfl⟩

theorem witness_PlacedTableWordIsRunNext : ∃ (nbits w : Nat) (i : Instr), decodeTableWord nbits w = some i :=
  ⟨16, 0x0700, .ping 7, by decide⟩

theorem witness_DecodeOfEncodeIsCommand : ∃ (ph : Phase) (rem : Word) (i j k : Instr),
    (i.wf = true ∧ i.fits ph rem) ∧ (j.wf = true ∧ j.fits ph rem) ∧ k.wf = true ∧ k.fits .idle 0 :=
  ⟨.streaming, 1, .chunk 0 [0xAA], .auxshift 0 255 (List.replicate 32 0), .prog 0 64,
    ⟨rfl, by decide, rfl⟩, ⟨rfl, trivial⟩, rfl, rfl⟩

theorem witness_EncodeOfDecodedCommandIsFrame : ∃ (ph : Phase) (rem : Word) (F : List Byte) (i : Instr),
    decode ph rem F = .ok i := ⟨.idle, 0, [0x0E, 0x00, 0x00], .auxshift 0 0 [], rfl⟩

/-- Widths 0 and 32. -/
theorem witness_PackBitsPlacesEachBit : ∃ w w' : Nat, w ≤ 32 ∧ w = 0 ∧ w' ≤ 32 ∧ w' = 32 :=
  ⟨0, 32, by decide, rfl, by decide, rfl⟩

theorem witness_UnpackBitsTakesEachBit : ∃ (buf : Buffer) (w : Nat), w ≤ 32 ∧ vgetR buf 7 = true ∧ w = 32 :=
  ⟨[0x80], 32, by decide, by decide, rfl⟩

theorem witness_UnpackOfPackReversesEachByte : ∃ k m : Nat, k < 4 ∧ m < 8 ∧ k = 3 ∧ m = 7 :=
  ⟨3, 7, by decide, by decide, rfl, rfl⟩

/-- Both clauses: byte 0 below `n / 8`, byte 1 at it. -/
theorem witness_ReverseBitOrderReversesWholeBytes : ∃ (buf : Buffer) (n k k' : Nat),
    n / 8 ≤ buf.length ∧ k < n / 8 ∧ n / 8 ≤ k' ∧ k + 1 = k' :=
  ⟨[0x01, 0x03], 12, 0, 1, by decide, by decide, by decide, rfl⟩

theorem witness_ResponseIsTransmitRepresentation : ∃ k m : Nat, k < 4 ∧ m < 8 := ⟨0, 0, by decide, by decide⟩

theorem witness_ParityMakesTotalEven : ∃ (buf : Buffer) (n : Nat), n / 8 < buf.length ∧
    vgetT buf n = false ∧ parityT buf n = true := ⟨[0x40], 5, by decide, by decide, by decide⟩

/-- A filled slot: the first and the last one of the state. Every command statement that assumes a
resolved device is met here. -/
theorem witness_resolved : readyState.resolve 0 = some 1 ∧ readyState.resolve 1 = some 2 := ⟨rfl, rfl⟩

theorem witness_CodeReadsComplete : ∃ (s : State) (d c : Byte), s.resolve d = some c := ⟨readyState, 0, 1, rfl⟩

theorem witness_RegisterReadsComplete : ∃ (s : State) (d c : Byte), s.resolve d = some c :=
  ⟨readyState, 1, 2, rfl⟩

/-- A capped and an uncapped slot. -/
theorem witness_ResultReadCompletes : ∃ (s : State) (d c d' c' : Byte) (h : d.toNat < 5)
    (h' : d'.toNat < 5), s.resolve d = some c ∧ s.capped[d.toNat] = true ∧ s.resolve d' = some c' ∧
    s.capped[d'.toNat] = false :=
  ⟨readyState.setCapped 0 true, 0, 1, 1, 2, by decide, by decide, rfl, rfl, rfl, rfl⟩

theorem witness_RegisterWriteCompletes : ∃ (s : State) (d c : Byte), s.resolve d = some c :=
  ⟨readyState, 0, 1, rfl⟩

/-- Both clauses at the limit. -/
theorem witness_ClockRequestCompletes : ∃ (s : State) (d c : Byte) (r r' : Word), d.toNat < 5 ∧
    s.resolve d = some c ∧ 250 < r.toNat ∧ r'.toNat ≤ 250 ∧ r = r' + 1 :=
  ⟨readyState, 0, 1, 251, 250, by decide, rfl, by decide, by decide, by decide⟩

theorem witness_WorkSubmissionCompletes : ∃ (s : State) (d c : Byte) (ws : List Word), ws.length = 11 ∧
    s.resolve d = some c := ⟨readyState, 1, 2, List.replicate 11 0, rfl, rfl⟩

theorem witness_TemperatureReadsComplete : ∃ d : Byte, d.toNat < 4 ∧ d.toNat + 1 = 4 := ⟨3, by decide, rfl⟩

theorem witness_TemperatureIsMostSignificantBitFirst : ∃ samples : List Byte, samples.length ≤ 16 ∧
    samples.length = 16 := ⟨List.replicate 16 1, by decide, rfl⟩

theorem witness_TemperatureOfNoTripleIsZero : ∃ d : Byte, 4 ≤ d.toNat ∧ d.toNat = 4 := ⟨4, by decide, rfl⟩

theorem witness_AuxiliaryShiftCompletes : ∃ (s : State) (d c : Byte), s.resolve d = some c :=
  ⟨readyState, 1, 2, rfl⟩

/-- Both clauses. -/
theorem witness_HeaderPollsTheStatusBit : ∃ (s s' : State) (d c : Byte), s.resolve d = some c ∧
    s'.resolve d = some c ∧ pollBusy s.nextAnswer = false ∧ pollBusy s'.nextAnswer = true :=
  ⟨answered [0x00], answered [0x3F], 0, 1, rfl, rfl, pollBusy_zero, pollBusy_ones⟩

theorem witness_PollEndsWithFirstClearAnswer : ∃ (s : State) (c : Byte) (L : Word) (n : Nat),
    s.fault = none ∧ s.ctl = .polling c L ∧ s.host.head? ≠ some .powerOn ∧ s.host.head? ≠ some .pause ∧
    (∀ k, k < n → pollBusy ((s.nextAnswers (n + 1)).getD k 0) = true) ∧
    pollBusy ((s.nextAnswers (n + 1)).getD n 0) = false ∧ n = 2 := by
  refine ⟨pollingState [0x3F, 0x3F, 0x00], 1, 64, 2, rfl, rfl, by decide, by decide, ?_, pollBusy_zero, rfl⟩
  intro k hk
  match k, hk with
  | 0, _ => exact pollBusy_ones
  | 1, _ => exact pollBusy_ones

theorem witness_PollHangsWhileBusy : ∃ (s : State) (c : Byte) (L : Word) (n : Nat),
    s.fault = none ∧ s.ctl = .polling c L ∧ s.host.head? ≠ some .powerOn ∧ s.host.head? ≠ some .pause ∧
    (∀ k, k ≤ n → pollBusy ((s.nextAnswers (n + 1)).getD k 0) = true) ∧ n = 1 := by
  refine ⟨pollingState [0x3F, 0x3F], 1, 64, 1, rfl, rfl, by decide, by decide, ?_, rfl⟩
  intro k hk
  match k, hk with
  | 0, _ => exact pollBusy_ones
  | 1, _ => exact pollBusy_ones

theorem witness_FirstChunkCompletes : ∃ (s : State) (d c : Byte), s.resolve d = some c ∧
    s.phase = .headerReceived ∧ 32 ≤ s.remaining.toNat ∧ s.remaining = 32 :=
  ⟨headerState 32, 0, 1, rfl, rfl, by decide, rfl⟩

theorem witness_ShortTransferFaults : ∃ (s : State) (d c : Byte), s.resolve d = some c ∧
    s.phase = .headerReceived ∧ s.remaining.toNat < 32 ∧ s.remaining = 31 :=
  ⟨headerState 31, 0, 1, rfl, rfl, by decide, rfl⟩

theorem witness_LaterChunkCompletes : ∃ (s : State) (d c : Byte), s.resolve d = some c ∧
    s.phase = .streaming ∧ 32 < s.remaining.toNat ∧ s.remaining = 33 :=
  ⟨streamingState 33, 0, 1, rfl, rfl, by decide, rfl⟩

/-- A last chunk of 32 bytes and one of none. -/
theorem witness_FinalChunkCompletes : ∃ (s s' : State) (d c : Byte) (data : List Byte),
    (s.resolve d = some c ∧ s.phase = .streaming ∧ s.remaining.toNat ≤ 32 ∧
      data.length = s.remaining.toNat ∧ data.length = 32) ∧
    s'.resolve d = some c ∧ s'.phase = .streaming ∧ s'.remaining.toNat ≤ 32 ∧
      ([] : List Byte).length = s'.remaining.toNat :=
  ⟨streamingState 32, streamingState 0, 0, 1, List.replicate 32 0xAA,
    ⟨rfl, rfl, by decide, rfl, rfl⟩, rfl, rfl, by decide, rfl⟩

theorem witness_ThirtyTwoByteTransferSwallowsOneByte : ∃ (s : State) (d c b : Byte)
    (rest : List HostInput), s.fault = none ∧ s.ctl = .ready ∧ s.phase = .streaming ∧ s.remaining = 0 ∧
    s.frameBytes? = some [0x05, d] ∧ s.resolve d = some c ∧ s.host = .byte b :: rest :=
  ⟨{ streamingState 0 with host := [.byte 0x00, .byte 0x00] }, 0, 1, 0x00, [.byte 0x00], rfl, rfl, rfl,
    rfl, rfl, rfl, rfl⟩

theorem witness_ChunkOutsideTransferStops : ∃ (s : State) (d c : Byte), s.resolve d = some c ∧
    s.phase = .idle := ⟨readyState, 0, 1, rfl, rfl⟩

theorem witness_WholeImageReachesDevice : ∃ (s : State) (d c extra : Byte) (image : List Byte)
    (rest : List HostInput), s.fault = none ∧ s.ctl = .ready ∧ s.phase = .idle ∧ s.len = 0 ∧
    s.resolve d = some c ∧ 32 < image.length ∧ image.length < 2 ^ 32 ∧
    s.host = (programWire d image extra).map HostInput.byte ++ rest ∧ pollBusy s.nextAnswer = false :=
  ⟨{ answered [0x00, 0x35] with
      host := (programWire 0 (List.replicate 33 0xAA) 0).map HostInput.byte ++ [] },
    0, 1, 0, List.replicate 33 0xAA, [], rfl, rfl, rfl, rfl, rfl, by decide, by decide, rfl, pollBusy_zero⟩

/-- An unassigned slot below 5, and a byte that names no slot, each under a command that resolves it. -/
theorem witness_UnassignedDeviceFaultsFirst : ∃ (s : State) (d d' d'' : Byte) (h : d.toNat < 5),
    s.pos[d.toNat] ≠ unassigned ∧ resolvedByte (.rreg d' 1) = some d' ∧ s.resolve d' = none ∧
    d'.toNat = 4 ∧ resolvedByte (.getclk d'') = some d'' ∧ s.resolve d'' = none ∧ d''.toNat = 5 :=
  ⟨readyState, 1, 4, 5, by decide, by decide, rfl, rfl, rfl, rfl, rfl, rfl⟩

theorem witness_FaultCauses : ∃ (s t : State) (i : Instr), s.fault = none ∧ exec i s = .next t ∧
    t.fault = some .bitstreamShort :=
  ⟨headerState 16, _, .chunk 0 [], rfl, rfl, rfl⟩

theorem witness_FaultCauses_of_unassigned : ∃ (s t : State) (i : Instr), s.fault = none ∧
    exec i s = .next t ∧ t.fault = some .unassignedDevice := ⟨readyState, _, .rreg 3 1, rfl, rfl, rfl⟩

theorem witness_FaultEntryIsPrecise : ∃ (s t : State) (code : FaultCode), s.fault = none ∧
    step s = .next t ∧ t.fault = some code := by
  obtain ⟨s, t, _, _, hf, hs, ht⟩ := witness_OnlyUnrecognizedOpcodeOverflows
  exact ⟨s, t, .frameOverflow, hf, hs, ht⟩

/-- The other clause of the same statement: a command's own fault. -/
theorem witness_FaultEntryIsPrecise_of_command : nextIs (fun t => t.fault == some .unassignedDevice)
    (step { readyState with
      frame := [(0, 0x07)]
      len := 1
      host := [.byte 0x05] }) = true := by decide

theorem witness_FaultedSequencerHasNoSuccessor : ∃ (s : State) (code : FaultCode), s.fault = some code ∧
    s.host.head? ≠ some .connect ∧ s.host.head? ≠ some .powerOn :=
  ⟨{ fed [0x00] with fault := some .bitstreamShort }, .bitstreamShort, rfl, by decide, by decide⟩

/-- Both ways out: power-on and a new connection. -/
theorem witness_OnlyProcessResetClearsFault : ∃ (s t s' t' : State) (code : FaultCode),
    s.fault = some code ∧ step s = .next t ∧ s.host.head? = some .powerOn ∧
    s'.fault = some code ∧ step s' = .next t' ∧ s'.host.head? = some .connect :=
  ⟨{ readyState with fault := some .frameOverflow, host := [.powerOn] }, _,
    { readyState with fault := some .frameOverflow, host := [.connect] }, _, .frameOverflow,
    rfl, rfl, rfl, rfl, rfl, rfl⟩

theorem witness_ProcessResetSetsEveryElement : ∃ (s : State) (rest : List HostInput),
    s.host = .powerOn :: rest := ⟨{ pollingState [] with host := [.powerOn] }, [], rfl⟩

theorem witness_SessionResetKeepsProcessState : ∃ (s s' : State) (rest : List HostInput),
    s.host = .connect :: rest ∧ s.fault ≠ none ∧ s'.host = .connect :: rest ∧ s'.ctl = .ready :=
  ⟨{ readyState with fault := some .frameOverflow, host := [.connect] },
    { streamingState 5 with host := [.connect] }, [], rfl, by decide, rfl, rfl⟩

theorem witness_DiscoveryFillsSlotsInOrder : ∃ s : State, s.fault = none ∧ s.ctl = .discovery ∧
    s.host.head? ≠ some .powerOn ∧ s.nextAnswer = 3 :=
  ⟨{ State.reset with answers := [3, 0, 1, 1] }, rfl, rfl, by decide, rfl⟩

theorem witness_StepKeepsInv : ∃ s t : State, Inv s ∧ step s = .next t :=
  ⟨{ streamingState 0 with host := [.byte 1] }, _, inv_streaming 0 [.byte 1], by
    rw [step_byte (b := 1) (rest := []) rfl rfl rfl, onByte, if_neg (frameCap_ne_small (by decide))]
    rfl⟩

theorem witness_StepKeepsAtRest : ∃ s t : State, Inv s ∧ AtRest s ∧ step s = .next t :=
  ⟨halfPing [.byte 9], _, inv_halfPing _, atRest_halfPing _, by
    rw [step_byte (b := 9) (rest := []) rfl rfl rfl, onByte, if_neg (frameCap_ne_small (by decide))]
    rfl⟩

theorem witness_DeviceTableStaysOrdered : ∃ s t : State, Inv s ∧ step s = .next t ∧ t.count = 2 :=
  ⟨{ State.reset with host := [], answers := [3, 0, 1, 1] }, _, inv_reset [] [3, 0, 1, 1], rfl, by decide⟩

theorem witness_TopologyFixedAfterDiscovery : ∃ s t : State, step s = .next t ∧ s.ctl ≠ .discovery ∧
    s.host.head? ≠ some .powerOn := ⟨readyState, _, rfl, by decide, by decide⟩

theorem witness_CommandsKeepTheirFrame : ∃ (s t : State) (i : Instr), exec i s = .next t ∧
    (∃ d r, i = .setclk d r) := ⟨readyState, _, .setclk 0 251, rfl, 0, 251, rfl⟩

/-- A consumed step, one that asks for more, and one that has not returned. -/
theorem witness_ConsumedStepSendsOneResponseLast :
    nextIs (fun t => t.outcome == some .consumed) (step (halfPing [.byte 9])) = true ∧
      nextIs (fun t => t.outcome == some .needMore) (step (fed [0x00])) = true ∧
      nextIs (fun t => t.outcome == none) (step readyState) = true := by decide

theorem witness_PhaseTransitions : ∃ s t : State, Inv s ∧ step s = .next t ∧ t.phase ≠ s.phase :=
  ⟨{ streamingState 0 with host := [.byte 1] }, _, inv_streaming 0 [.byte 1], by
    rw [step_byte (b := 1) (rest := []) rfl rfl rfl, onByte, if_neg (frameCap_ne_small (by decide))]
    rfl, by decide⟩

theorem witness_TransferTakesEveryByteAsPayload : ∃ (s : State) (b : Byte) (F : List Byte) (i : Instr),
    Inv s ∧ s.phase ≠ .idle ∧ (s.append b).frameBytes? = some F ∧ decode s.phase s.remaining F = .ok i :=
  ⟨streamingState 1, 0x00, [0x05, 0x00, 0x00], .chunk 0 [0x00], inv_streaming 1 [], by decide, rfl, rfl⟩

/-- The longest command: a first 16-bit temperature read. -/
theorem witness_CommandsRunBoundedTransactions :
    (Instr.temp16 2).wf = true ∧ (∀ d L, Instr.temp16 2 ≠ .prog d L) ∧
      nextIs (fun t => t.trace.length == 63) (exec (.temp16 2) (answered (List.replicate 16 0))) = true :=
  ⟨rfl, by simp, by decide +kernel⟩

/-- The last byte of a first chunk is about to come. -/
def almostChunk : State := { headerState 33 with
  frame := (0, 0x05) :: (1, 0x00) :: fullFrame 2 31
  len := 33
  host := [.byte 0xFF] }

theorem inv_almostChunk : Inv almostChunk where
  table := ⟨tableOk_ready.filled, tableOk_ready.rising⟩
  frame := frameOk_of_small ((0, 0x05) :: (1, 0x00) :: fullFrame 2 31) 33 rfl rfl
    (by decide) (by decide) (by decide) (by decide)
  control := trivial
  transfer := fun _ => ⟨rfl, by decide, rfl, 0, 1, rfl, rfl⟩

/-- A chunk that leaves the shift open. -/
theorem witness_OnlyChunksLeaveTheShiftOpen : ∃ s t : State, Inv s ∧ step s = .next t ∧
    ∃ e ∈ t.trace, e.opensShift = true :=
  ⟨almostChunk, _, inv_almostChunk, by
    rw [step_byte (b := 0xFF) (rest := []) rfl rfl rfl, onByte, if_neg (frameCap_ne_small (by decide))]
    rfl, by exact ⟨.scWriteDr 1 (List.replicate 32 0xFF) 256 false, List.mem_cons_self, rfl⟩⟩

/-- A step of a Streaming transfer with a transaction. -/
theorem witness_OnlyChunksLeaveTheShiftOpen_when_streaming : ∃ s t : State, Inv s ∧ step s = .next t ∧
    s.phase = .streaming ∧ t.trace ≠ s.trace :=
  ⟨{ streamingState 0 with host := [.byte 1] }, _, inv_streaming 0 [.byte 1], by
    rw [step_byte (b := 1) (rest := []) rfl rfl rfl, onByte, if_neg (frameCap_ne_small (by decide))]
    rfl, rfl, by exact List.cons_ne_nil _ _⟩

end Sys2Proof.Machine
end

section
/-!
PROOFS of the statements of 10_state.md: every step keeps the invariant (R22, R23, R29, R33), the Device
Table's order after a step (R29), and the run of a placed table word (log 7).
-/

namespace Sys2Proof.Machine

/-! ### What a sequence of transactions and a completed command leave alone -/

@[simp] theorem State.did_frame (es : List Event) (n : Nat) (s : State) :
    (s.did es n).frame = s.frame := by simp [State.did, State.takeAnswers_eq]
@[simp] theorem State.did_len (es : List Event) (n : Nat) (s : State) :
    (s.did es n).len = s.len := by simp [State.did, State.takeAnswers_eq]
@[simp] theorem State.did_phase (es : List Event) (n : Nat) (s : State) :
    (s.did es n).phase = s.phase := by simp [State.did, State.takeAnswers_eq]
@[simp] theorem State.did_pos (es : List Event) (n : Nat) (s : State) :
    (s.did es n).pos = s.pos := by simp [State.did, State.takeAnswers_eq]
@[simp] theorem State.did_count (es : List Event) (n : Nat) (s : State) :
    (s.did es n).count = s.count := by simp [State.did, State.takeAnswers_eq]
@[simp] theorem State.did_fault (es : List Event) (n : Nat) (s : State) :
    (s.did es n).fault = s.fault := by simp [State.did, State.takeAnswers_eq]

@[simp] theorem State.completed_frame (es : List Event) (n keep : Nat) (s : State) :
    (s.completed es n keep).frame = s.frame := State.did_frame es n s
@[simp] theorem State.completed_len (es : List Event) (n keep : Nat) (s : State) :
    (s.completed es n keep).len = keep := rfl
@[simp] theorem State.completed_phase (es : List Event) (n keep : Nat) (s : State) :
    (s.completed es n keep).phase = s.phase := State.did_phase es n s
@[simp] theorem State.completed_pos (es : List Event) (n keep : Nat) (s : State) :
    (s.completed es n keep).pos = s.pos := State.did_pos es n s
@[simp] theorem State.completed_count (es : List Event) (n keep : Nat) (s : State) :
    (s.completed es n keep).count = s.count := State.did_count es n s
@[simp] theorem State.completed_ctl (es : List Event) (n keep : Nat) (s : State) :
    (s.completed es n keep).ctl = .ready := rfl

/-- RESOLVE reads the slots' positions and nothing else. -/
theorem State.resolve_congr {s t : State} (hpos : t.pos = s.pos) (d : Byte) :
    t.resolve d = s.resolve d := by
  simp only [State.resolve, hpos]

/-! ### The decoder -/

/-- A buffer that decodes has bytes, has reached its minimum length, and is read as a ready frame. -/
theorem decode_eq_ok {ph : Phase} {rem : Word} {F : List Byte} {i : Instr}
    (h : decode ph rem F = .ok i) :
    ∃ op rest need, F = op :: rest ∧ minLen ph rem F = some need ∧ need ≤ F.length ∧
      decodeReady ph need op (rest.getD 0 0) F = .ok i := by
  cases F with
  | nil => cases h
  | cons op rest =>
    rw [decode] at h
    cases hm : minLen ph rem (op :: rest) with
    | none => simp [hm] at h
    | some need =>
      simp only [hm] at h
      split at h
      · cases h
      · rename_i hlen
        exact ⟨op, rest, need, rfl, rfl, Nat.le_of_not_lt hlen, h⟩

/-- Only opcode 0x05 in phase Idle reads as PROG. -/
theorem decodeReady_eq_prog {ph : Phase} {need : Nat} {op d d' : Byte} {F : List Byte} {L : Word}
    (h : decodeReady ph need op d F = .ok (.prog d' L)) :
    op = 0x05 ∧ ph = .idle ∧ d' = d ∧ L = memRead4 F 2 := by
  unfold decodeReady at h
  split at h
  case h_6 hop =>
    split at h
    · rename_i hph
      cases h
      exact ⟨BitVec.eq_of_toNat_eq hop, hph, rfl, rfl⟩
    · cases h
  all_goals cases h

/-- A field above the low byte of a concatenation is read from the part above it. -/
theorem extractLsb'_append_byte {w k : Nat} (hi : BitVec w) (lo : Byte) :
    (hi ++ lo).extractLsb' (k + 8) 8 = hi.extractLsb' k 8 :=
  (BitVec.extractLsb'_append_eq_of_le (Nat.le_add_left 8 k)).trans (by rw [Nat.add_sub_cancel])

/-- `LE4` gives back the four bytes that make a word, the lowest first. -/
theorem le4_append (a b c d : Byte) : le4 (d ++ c ++ b ++ a : BitVec 32) = [a, b, c, d] := by
  have ha : (d ++ c ++ b ++ a).extractLsb' 0 8 = a := BitVec.extractLsb'_append_eq_right
  have hb : (d ++ c ++ b ++ a).extractLsb' 8 8 = b :=
    (extractLsb'_append_byte (k := 0) _ a).trans BitVec.extractLsb'_append_eq_right
  have hc : (d ++ c ++ b ++ a).extractLsb' 16 8 = c :=
    (extractLsb'_append_byte (k := 8) _ a).trans <|
      (extractLsb'_append_byte (k := 0) _ b).trans BitVec.extractLsb'_append_eq_right
  have hd : (d ++ c ++ b ++ a).extractLsb' 24 8 = d :=
    (extractLsb'_append_byte (k := 16) _ a).trans <|
      (extractLsb'_append_byte (k := 8) _ b).trans BitVec.extractLsb'_append_eq_left
  exact congrArg₂ _ ha (congrArg₂ _ hb (congrArg₂ _ hc (congrArg₂ _ hd rfl)))

/-- What decodes to PROG starts, in phase Idle, with that header's six bytes (30_encoding.md rule R72). -/
theorem decode_eq_prog {ph : Phase} {rem : Word} {F : List Byte} {d : Byte} {L : Word}
    (h : decode ph rem F = .ok (.prog d L)) : ph = .idle ∧ F.take 6 = encode (.prog d L) := by
  obtain ⟨op, rest, need, rfl, hmin, hneed, hready⟩ := decode_eq_ok h
  obtain ⟨rfl, rfl, rfl, rfl⟩ := decodeReady_eq_prog hready
  obtain rfl : 6 = need := by simpa [minLen] using hmin
  match rest, hneed with
  | b1 :: b2 :: b3 :: b4 :: b5 :: rest, _ => simp [encode, memRead4, le4_append]

/-- Inside a transfer a buffer that starts with the retained opcode decodes to a chunk only
(44_bitstream.md rule R180). -/
theorem decode_eq_chunk {ph : Phase} {rem : Word} {F : List Byte} {i : Instr} (hph : ph ≠ .idle)
    (hop : F[0]? = some 0x05) (h : decode ph rem F = .ok i) : ∃ d data, i = .chunk d data := by
  obtain ⟨op, rest, need, rfl, -, -, hready⟩ := decode_eq_ok h
  obtain rfl : op = 0x05 := by simpa using hop
  have hi : Except.ok (.chunk (rest.getD 0 0) (((0x05 :: rest).take need).drop 2)) =
      (.ok i : Except DecodeError Instr) := by rw [← hready]; simp [decodeReady, hph]
  cases hi
  exact ⟨_, _, rfl⟩

/-- In phase Idle the remaining count is not read (R75). -/
theorem decode_idle (rem rem' : Word) (F : List Byte) : decode .idle rem F = decode .idle rem' F := by
  have hmin : ∀ F, minLen .idle rem F = minLen .idle rem' F := fun F => by simp [minLen]
  cases F with
  | nil => rfl
  | cons op rest => rw [decode, decode, hmin]

/-! ### The parts of the invariant -/

/-- The header under a status poll of chain `c` (44_bitstream.md rule R177): the buffer starts with the
frame of PROG for a slot at that position. -/
def BufferedHeader (s : State) (c : Byte) (L : Word) : Prop :=
  ∃ d F, s.frameBytes? = some F ∧ F.take 6 = encode (.prog d L) ∧ s.resolve d = some c

theorem controlOk_of_ready {s : State} (h : s.ctl = .ready) : ControlOk s := by
  simp only [ControlOk, h]

theorem controlOk_discovery_iff {s : State} (h : s.ctl = .discovery) :
    ControlOk s ↔ s.count = 0 ∧ s.len = 0 ∧ s.phase = .idle ∧ s.fault = none := by
  simp only [ControlOk, h]

theorem controlOk_polling_iff {s : State} {c : Byte} {L : Word} (h : s.ctl = .polling c L) :
    ControlOk s ↔ s.phase = .idle ∧ s.fault = none ∧ BufferedHeader s c L := by
  simp only [ControlOk, h, BufferedHeader]

/-- A fault is only taken by a ready sequencer. -/
theorem ControlOk.ready_of_fault {s : State} (h : ControlOk s) (hf : s.fault ≠ none) :
    s.ctl = .ready := by
  cases hc : s.ctl with
  | ready => rfl
  | discovery =>
    obtain ⟨-, -, -, hnone⟩ := (controlOk_discovery_iff hc).mp h
    exact absurd hnone hf
  | polling c L =>
    obtain ⟨-, hnone, -⟩ := (controlOk_polling_iff hc).mp h
    exact absurd hnone hf

/-- The Device Table's invariant reads the positions and the count only. -/
theorem TableOk.congr {s t : State} (h : TableOk s) (hpos : t.pos = s.pos) (hcount : t.count = s.count) :
    TableOk t := by
  refine ⟨?_, ?_⟩
  · rw [hpos, hcount]; exact h.filled
  · rw [hpos, hcount]; exact h.rising

/-- The frame buffer's invariant holds of any shorter fill length. -/
theorem FrameOk.shorten {s t : State} (h : FrameOk s) (hframe : t.frame = s.frame) (hlen : t.len ≤ s.len) :
    FrameOk t where
  canonical := by rw [hframe]; exact h.canonical
  bounded := by rw [hframe]; exact h.bounded
  length := hlen.trans h.length
  written i hi := by rw [hframe]; exact h.written i (Nat.lt_of_lt_of_le hi hlen)

/-- A byte appended below the capacity keeps the frame buffer's invariant (45_dispatcher.md rule R201). -/
theorem FrameOk.append {s : State} (h : FrameOk s) (hl : s.len ≠ Config.frameCap) (b : Byte) :
    FrameOk (s.append b) := by
  have hlt : s.len < Config.frameCap := Nat.lt_of_le_of_ne h.length hl
  refine ⟨Memory.wf_write h.canonical _ _, fun e he => ?_, hlt, fun i hi => ?_⟩
  · rcases Memory.mem_offsets_write (List.mem_map_of_mem he) with heq | hold
    · exact heq ▸ hlt
    · obtain ⟨e', he', heq⟩ := List.mem_map.mp hold
      exact heq ▸ h.bounded e' he'
  · rw [State.append_frame]
    by_cases heq : i = s.len
    · rw [heq, Memory.read?_write_same]; rfl
    · rw [Memory.read?_write_other _ _ heq]
      exact h.written i (Nat.lt_of_le_of_ne (Nat.le_of_lt_succ hi) heq)

/-- The retained header is read from the frame bytes and the slots' positions. -/
theorem HeaderKept.congr {s t : State} (h : HeaderKept s) (hframe : t.frame = s.frame)
    (hpos : t.pos = s.pos) (hlen : 2 ≤ t.len) : HeaderKept t := by
  obtain ⟨-, hop, d, c, hd, hc⟩ := h
  exact ⟨hlen, hframe ▸ hop, d, c, hframe ▸ hd, (State.resolve_congr hpos d).trans hc⟩

/-- Appended bytes go behind the retained header (10_state.md rule R33). -/
theorem HeaderKept.append {s : State} (h : HeaderKept s) (b : Byte) : HeaderKept (s.append b) := by
  obtain ⟨hlen, hop, d, c, hd, hc⟩ := h
  have hread : ∀ a, a < 2 → Memory.read? (s.append b).frame a = Memory.read? s.frame a :=
    fun a ha => Memory.read?_write_other _ _ (Nat.ne_of_lt (Nat.lt_of_lt_of_le ha hlen))
  exact ⟨Nat.le_succ_of_le hlen, (hread 0 (by decide)).trans hop, d, c,
    (hread 1 (by decide)).trans hd, hc⟩

/-- A byte of the buffered frame is the byte at its offset. -/
theorem read?_of_frameBytes? {s : State} {F : List Byte} (h : s.frameBytes? = some F) {i : Nat}
    (hi : i < F.length) : Memory.read? s.frame i = F[i]? := by
  obtain ⟨hlen, hread⟩ := Memory.readRange?_eq_some.mp h
  simpa using hread i (hlen ▸ hi)

/-- Under a poll the header is in place, to be retained once the poll is over (R171). -/
theorem BufferedHeader.headerKept {s : State} {c : Byte} {L : Word} (h : BufferedHeader s c L) :
    HeaderKept s := by
  obtain ⟨d, F, hF, htake, hc⟩ := h
  have hlen : 6 ≤ F.length := by
    have htakelen := congrArg List.length htake
    simp only [List.length_take, encode, le4, List.length_append, List.length_cons,
      List.length_nil] at htakelen
    omega
  have hbyte : ∀ i, i < 6 → Memory.read? s.frame i = (encode (.prog d L))[i]? := fun i hi => by
    rw [read?_of_frameBytes? hF (by omega), ← htake, List.getElem?_take_of_lt hi]
  obtain ⟨hslen, -⟩ := Memory.readRange?_eq_some.mp hF
  exact ⟨by omega, hbyte 0 (by decide), d, c, hbyte 1 (by decide), hc⟩

theorem BufferedHeader.congr {s t : State} {c : Byte} {L : Word} (h : BufferedHeader s c L)
    (hframe : t.frame = s.frame) (hlen : t.len = s.len) (hpos : t.pos = s.pos) :
    BufferedHeader t c L := by
  obtain ⟨d, F, hF, htake, hc⟩ := h
  refine ⟨d, F, ?_, htake, (State.resolve_congr hpos d).trans hc⟩
  rw [State.frameBytes?, hframe, hlen]
  exact hF

/-! ### The invariant of a ready and of a polling state -/

/-- A ready state with the table and the frame bytes of a state of the invariant, whose header is retained
where a transfer is in progress. -/
theorem Inv.ready {s t : State} (h : Inv s) (hframe : t.frame = s.frame) (hpos : t.pos = s.pos)
    (hcount : t.count = s.count) (hlen : t.len ≤ s.len) (hctl : t.ctl = .ready)
    (hkept : t.phase ≠ .idle → 2 ≤ t.len ∧ HeaderKept s) : Inv t where
  table := h.table.congr hpos hcount
  frame := h.frame.shorten hframe hlen
  control := controlOk_of_ready hctl
  transfer hph := by
    obtain ⟨h2, hk⟩ := hkept hph
    exact ⟨hctl, hk.congr hframe hpos h2⟩

/-- A ready state that differs from one of the invariant in its input, answers, fault or outcome only. -/
theorem Inv.ready_same {s t : State} (h : Inv s) (hframe : t.frame = s.frame) (hpos : t.pos = s.pos)
    (hcount : t.count = s.count) (hlen : t.len = s.len) (hctl : t.ctl = .ready)
    (hphase : t.phase = s.phase) : Inv t := by
  refine h.ready hframe hpos hcount hlen.le hctl fun hph => ?_
  obtain ⟨-, hk⟩ := h.transfer (hphase ▸ hph)
  exact ⟨hlen ▸ hk.1, hk⟩

/-- A state that goes into or stays in the poll of a buffered header. -/
theorem Inv.polling {s t : State} {c : Byte} {L : Word} (h : Inv s) (hframe : t.frame = s.frame)
    (hpos : t.pos = s.pos) (hcount : t.count = s.count) (hlen : t.len = s.len)
    (hctl : t.ctl = .polling c L) (hphase : t.phase = .idle) (hfault : t.fault = none)
    (hheader : BufferedHeader s c L) : Inv t where
  table := h.table.congr hpos hcount
  frame := h.frame.shorten hframe hlen.le
  control := (controlOk_polling_iff hctl).mpr ⟨hphase, hfault, hheader.congr hframe hlen hpos⟩
  transfer hph := absurd hphase hph

theorem Inv.append {s : State} (h : Inv s) (hctl : s.ctl = .ready) (hl : s.len ≠ Config.frameCap)
    (b : Byte) : Inv (s.append b) where
  table := h.table.congr rfl rfl
  frame := h.frame.append hl b
  control := controlOk_of_ready hctl
  transfer hph := ⟨hctl, (h.transfer hph).2.append b⟩

/-! ### Commands keep the invariant -/

/-- Inside a transfer the buffered frame decodes to a chunk only (44_bitstream.md rule R180). -/
theorem Inv.decode_in_transfer {s : State} {F : List Byte} {i : Instr} (h : Inv s) (hph : s.phase ≠ .idle)
    (hF : s.frameBytes? = some F) (hd : decode s.phase s.remaining F = .ok i) :
    ∃ d data, i = .chunk d data := by
  obtain ⟨-, h2, hop, -⟩ := h.transfer hph
  obtain ⟨hlen, -⟩ := Memory.readRange?_eq_some.mp hF
  exact decode_eq_chunk hph (by rw [← read?_of_frameBytes? hF (by omega)]; exact hop) hd

/-- A decoded header whose slot resolves is a buffered header. -/
theorem bufferedHeader_of_decode {s : State} {F : List Byte} {d c : Byte} {L : Word}
    (hF : s.frameBytes? = some F) (hd : decode s.phase s.remaining F = .ok (.prog d L))
    (hr : s.resolve d = some c) : BufferedHeader s c L :=
  ⟨d, F, hF, (decode_eq_prog hd).2, hr⟩

/-- The command that the buffered frame names keeps the invariant. -/
theorem Inv.execNext {s t : State} {F : List Byte} {i : Instr} (h : Inv s) (hf : s.fault = none)
    (hctl : s.ctl = .ready) (hF : s.frameBytes? = some F) (hd : decode s.phase s.remaining F = .ok i)
    (ht : ExecNext i s t) : Inv t := by
  cases ht with
  | unassigned d hi hr => exact h.ready_same rfl rfl rfl rfl hctl rfl
  | short d c data hi hr hp hl => exact h.ready_same rfl rfl rfl rfl hctl rfl
  | done events bytes n capped configured hi hr he hl hc hg =>
    refine h.ready (by simp) (by simp) (by simp) (by simp) (by simp) fun hph => ?_
    obtain ⟨d, data, rfl⟩ := h.decode_in_transfer (by simpa using hph) hF hd
    exact absurd rfl (hi.2 d data)
  | waits d c L hi hr hb =>
    subst hi
    exact h.polling (by simp) (by simp) (by simp) (by simp) rfl (by simpa using (decode_eq_prog hd).1)
      (by simpa using hf) (bufferedHeader_of_decode hF hd hr)
  | header d c L hi hr hb =>
    subst hi
    have hk := (bufferedHeader_of_decode hF hd hr).headerKept
    exact h.ready (by simp) (by simp) (by simp) (by simpa using hk.1) rfl fun _ => ⟨le_rfl, hk⟩
  | chunk d c data hi hr hp =>
    have hph : s.phase ≠ .idle := by rcases hp with ⟨hp, -⟩ | ⟨hp, -⟩ <;> simp [hp]
    obtain ⟨-, hk⟩ := h.transfer hph
    exact h.ready (by simp) (by simp) (by simp) (by simpa using hk.1) rfl fun _ => ⟨le_rfl, hk⟩
  | final d c data hi hr hp hl =>
    exact h.ready (by simp) (by simp) (by simp) (by simp) rfl fun hph => absurd rfl hph

/-! ### Discovery fills the table in order -/

/-- The table's invariant while discovery goes on: every filled slot holds a chain below `c`, the next one
to be probed (42_topology.md rule R140). -/
structure TableBelow (c : Nat) (s : State) : Prop where
  table : TableOk s
  below : ∀ d : Fin 5, d.val < s.count.val → (s.pos.get d).toNat < c

theorem TableBelow.congr {c c' : Nat} {s t : State} (h : TableBelow c s) (hc : c ≤ c')
    (hpos : t.pos = s.pos) (hcount : t.count = s.count) : TableBelow c' t where
  table := h.table.congr hpos hcount
  below d hd := by
    rw [hcount] at hd
    rw [hpos]
    exact Nat.lt_of_lt_of_le (h.below d hd) hc

theorem State.addSlot_count_val {s : State} (h : s.count.val < 4) (c : Byte) :
    (s.addSlot c).count.val = s.count.val + 1 := by
  simp [h]

theorem State.addSlot_pos_get {s : State} (h : s.count.val < 4) (c : Byte) (d : Fin 5) :
    (s.addSlot c).pos.get d = if d = s.count then c else s.pos.get d := by
  simp only [State.addSlot_pos, h, dif_pos, Vector.get_eq_getElem, Vector.getElem_set, Fin.ext_iff,
    eq_comm]

/-- A table of unassigned slots and count 0 is in order. -/
theorem tableOk_empty {s : State} (hpos : s.pos = State.reset.pos) (hcount : s.count = 0) :
    TableOk s := by
  refine ⟨?_, ?_⟩
  · rw [hpos, hcount]; decide
  · rw [hpos, hcount]; decide

/-- A live chain goes to the first unfilled slot. -/
theorem TableBelow.addSlot {c : Nat} {s : State} (h : TableBelow c s) (hc : c < 255)
    (hcount : s.count.val < 4) : TableBelow (c + 1) (s.addSlot (BitVec.ofNat 8 c)) := by
  have hnat : (BitVec.ofNat 8 c).toNat = c := by rw [BitVec.toNat_ofNat]; omega
  have hne : BitVec.ofNat 8 c ≠ unassigned := fun e => by
    rw [e, show unassigned.toNat = 255 from rfl] at hnat
    omega
  refine ⟨⟨fun d => ?_, fun i j hij hj => ?_⟩, fun d hd => ?_⟩
  · rw [State.addSlot_count_val hcount, State.addSlot_pos_get hcount]
    split
    · rename_i heq; subst heq; simp [hne]
    · rename_i hd
      rw [h.table.filled d]
      omega
  · rw [State.addSlot_count_val hcount] at hj
    rw [State.addSlot_pos_get hcount, State.addSlot_pos_get hcount, if_neg (by omega : ¬ i = s.count)]
    split
    · rename_i heq
      rw [BitVec.lt_def, hnat]
      exact h.below i (heq ▸ hij)
    · exact h.table.rising i j hij (by omega)
  · rw [State.addSlot_count_val hcount] at hd
    rw [State.addSlot_pos_get hcount]
    split
    · omega
    · exact Nat.lt_succ_of_lt (h.below d (by omega))

theorem probeFrom_tableOk {k c : Nat} {s : State} (h : TableBelow c s) (hc : c + k ≤ 255) :
    TableOk (probeFrom k c s) := by
  induction k generalizing c s with
  | zero => exact h.table
  | succ k ih =>
    unfold probeFrom
    split
    · exact h.table
    · rename_i hfull
      have hpos : (scProbe (BitVec.ofNat 8 c) s).2.pos = s.pos := by simp [scProbe]
      have hcnt : (scProbe (BitVec.ofNat 8 c) s).2.count = s.count := by simp [scProbe]
      have hprobe : TableBelow c (scProbe (BitVec.ofNat 8 c) s).2 := h.congr le_rfl hpos hcnt
      have hcount : (scProbe (BitVec.ofNat 8 c) s).2.count.val < 4 := by
        simp only [maxLive] at hfull
        omega
      refine ih ?_ (by omega)
      split
      · exact hprobe.addSlot (by omega) hcount
      · exact hprobe.congr (Nat.le_succ c) rfl rfl

/-- Discovery ends with the table in order (10_state.md rule R29). -/
theorem discover_tableOk (s : State) : TableOk (discover s) := by
  have hclear : TableOk s.clearTable := tableOk_empty rfl rfl
  have hstart : TableBelow 0 (scChains s.clearTable).2 :=
    ⟨hclear.congr (by simp [scChains]) (by simp [scChains]), by simp [scChains]⟩
  exact (probeFrom_tableOk (k := (scChains s.clearTable).1.toNat) hstart (by omega)).congr rfl rfl

/-- Process reset meets the invariant (70_reset_and_hazards.md rule R290). -/
theorem inv_processReset (s : State) : Inv s.processReset where
  table := tableOk_empty rfl rfl
  frame := ⟨.nil, fun _ he => absurd he List.not_mem_nil, Nat.zero_le _,
    fun i hi => absurd hi i.not_lt_zero⟩
  control := ⟨rfl, rfl, rfl, rfl⟩
  transfer hph := absurd rfl hph

/-- Discovery takes the state after process reset to a ready one. -/
theorem Inv.discover {s : State} (h : Inv s) (hc : s.ctl = .discovery) : Inv (discover s) := by
  obtain ⟨-, -, hidle, -⟩ := (controlOk_discovery_iff hc).mp h.control
  have htable := discover_tableOk s
  obtain ⟨evs, n, p, cnt, -, heq⟩ := discover_frame s
  rw [heq] at htable ⊢
  exact ⟨htable, h.frame.shorten (by simp) (by simp), controlOk_of_ready rfl,
    fun hph => absurd (by simpa using hidle) hph⟩

/-! ### The step -/

/-- What the outside will do is no part of the invariant. -/
theorem Inv.withHost {s : State} (h : Inv s) (host : List HostInput) : Inv { s with host := host } :=
  ⟨h.table.congr rfl rfl, h.frame.shorten rfl le_rfl, h.control, fun hph => h.transfer hph⟩

/-- Settles O51, by the cases of `StepNext`. -/
theorem stepKeepsInv : Obligations.StepKeepsInv := by
  unfold Obligations.StepKeepsInv
  intro s t h hstep
  cases step_next hstep with
  | powerOn rest hh => exact inv_processReset _
  | connect rest hh hc =>
    have hctl : s.ctl = .ready := hc.elim h.control.ready_of_fault id
    exact h.ready rfl rfl rfl (Nat.zero_le _) hctl fun hph => absurd rfl hph
  | discovered host hf hc hp => exact (h.withHost host).discover hc
  | polled host c L hf hc hp hb =>
    obtain ⟨hidle, -, hheader⟩ := (controlOk_polling_iff hc).mp h.control
    exact h.polling (by simp) (by simp) (by simp) (by simp) rfl (by simpa using hidle)
      (by simpa using hf) hheader
  | headerDone host c L hf hc hp hb =>
    obtain ⟨-, -, hheader⟩ := (controlOk_polling_iff hc).mp h.control
    have hk := hheader.headerKept
    exact h.ready (by simp) (by simp) (by simp) (by simpa using hk.1) rfl fun _ => ⟨le_rfl, hk⟩
  | idle host hf hc hp => exact h.ready_same rfl rfl rfl rfl hc rfl
  | overflow b rest hf hc hh hl => exact h.ready_same rfl rfl rfl rfl hc rfl
  | needMore b rest F e hf hc hh hl hF hd =>
    exact ((h.withHost rest).append hc hl b).ready_same rfl rfl rfl rfl hc rfl
  | ran b rest F i t hf hc hh hl hF hd ht =>
    exact ((h.withHost rest).append hc hl b).execNext hf hc hF hd ht

/-! ### The Device Table's order -/

/-- Slot 4 is never filled, since the count is at most 4. -/
theorem TableOk.slot4 {s : State} (h : TableOk s) : s.pos.get 4 = unassigned := by
  by_contra hne
  have := (h.filled 4).mp hne
  omega

/-- The filled slots hold distinct positions. -/
theorem TableOk.distinct {s : State} (h : TableOk s) {i j : Fin 5} (hi : i.val < s.count.val)
    (hj : j.val < s.count.val) (heq : s.pos.get i = s.pos.get j) : i = j := by
  rcases lt_trichotomy i j with hlt | hij | hgt
  · exact absurd (heq ▸ h.rising i j hlt hj) (BitVec.lt_irrefl _)
  · exact hij
  · exact absurd (heq ▸ h.rising j i hgt hi) (BitVec.lt_irrefl _)

/-- Settles O53: it is what the table's part of the invariant says of the next state. -/
theorem deviceTableStaysOrdered : Obligations.DeviceTableStaysOrdered := by
  unfold Obligations.DeviceTableStaysOrdered
  intro s t h hstep
  have htable : TableOk t := (stepKeepsInv s t h hstep).table
  exact ⟨htable.slot4, htable.filled, htable.rising, fun i j => htable.distinct⟩

/-! ### Running a placed table word -/

/-- A write below a range of writes is not touched by it. -/
theorem Memory.read?_writeRange_below (m : Memory) {a x : Nat} (bs : List Byte) (h : x < a) :
    Memory.read? (Memory.writeRange m a bs) x = Memory.read? m x := by
  induction bs generalizing m a with
  | nil => rfl
  | cons b bs ih =>
    rw [Memory.writeRange, ih _ (Nat.lt_succ_of_lt h), Memory.read?_write_other _ _ (Nat.ne_of_lt h)]

/-- A range read gives back the range written. -/
theorem Memory.readRange?_writeRange (m : Memory) (a : Nat) (bs : List Byte) :
    Memory.readRange? (Memory.writeRange m a bs) a bs.length = some bs := by
  induction bs generalizing m a with
  | nil => rfl
  | cons b bs ih =>
    rw [Memory.writeRange, List.length_cons, Memory.readRange?,
      Memory.read?_writeRange_below _ _ (Nat.lt_succ_self a), Memory.read?_write_same, ih]

/-- The state whose last frame byte has just been received, the others having been loaded (log 7). -/
def State.loadedFrame (bs : List Byte) (b : Byte) (s : State) : State :=
  ({ s.loadFrame (bs ++ [b]) with host := s.host } : State).append b

theorem frameBytes?_loadedFrame (bs : List Byte) (b : Byte) (s : State) :
    (s.loadedFrame bs b).frameBytes? = some (bs ++ [b]) := by
  refine State.frameBytes?_append ?_ b
  simp only [State.frameBytes?, State.loadFrame, List.dropLast_concat]
  exact Memory.readRange?_writeRange s.frame 0 bs

/-- The step after a frame is loaded runs the command that the frame names. -/
theorem step_loadFrame {s : State} {bs : List Byte} {b : Byte} {i : Instr}
    (hlen : bs.length ≠ Config.frameCap) (hd : decode .idle s.remaining (bs ++ [b]) = .ok i) :
    step (s.loadFrame (bs ++ [b])) = exec i (s.loadedFrame bs b) := by
  have hhost : (s.loadFrame (bs ++ [b])).host = .byte b :: s.host := by simp [State.loadFrame]
  have hroom : (s.loadFrame (bs ++ [b])).len ≠ Config.frameCap := by simpa [State.loadFrame] using hlen
  have hphase : (s.loadedFrame bs b).phase = .idle := rfl
  have hremaining : (s.loadedFrame bs b).remaining = s.remaining := rfl
  calc step (s.loadFrame (bs ++ [b]))
      = onByte b { s.loadFrame (bs ++ [b]) with host := s.host } := step_byte rfl rfl hhost
    _ = runFrame (s.loadedFrame bs b) := if_neg hroom
    _ = exec i (s.loadedFrame bs b) := by
      simp only [runFrame, frameBytes?_loadedFrame, hphase, hremaining, hd]

theorem length_tableFrame_le (nbits w : Nat) : (tableFrame nbits w).length ≤ 46 := by
  simp [tableFrame, tableBytes, maxFrame]

/-- A table word that decodes is a frame with a last byte. -/
theorem decodeTableWord_eq_some {nbits w : Nat} {i : Instr} (h : decodeTableWord nbits w = some i) :
    decode .idle 0 (tableFrame nbits w) = .ok i ∧ ∃ bs b, tableFrame nbits w = bs ++ [b] := by
  unfold decodeTableWord at h
  split at h
  · rename_i hd
    cases h
    obtain ⟨op, rest, -, hF, -⟩ := decode_eq_ok hd
    have hne : tableFrame nbits w ≠ [] := by rw [hF]; exact List.cons_ne_nil op rest
    exact ⟨hd, _, _, (List.dropLast_append_getLast hne).symm⟩
  · cases h

/-- Settles O8: the loaded frame decodes as the table word does, since phase Idle reads no remaining
count. -/
theorem placedTableWordIsRunNext : Obligations.PlacedTableWordIsRunNext := by
  unfold Obligations.PlacedTableWordIsRunNext
  intro s nbits w i h
  obtain ⟨hd, bs, b, hF⟩ := decodeTableWord_eq_some h
  have hroom : bs.length ≠ Config.frameCap := by
    have hle := length_tableFrame_le nbits w
    rw [hF, List.length_append, List.length_singleton] at hle
    rw [Config.frameCap]
    omega
  rw [decode_idle 0 s.remaining, hF] at hd
  rw [State.withFetchWord, hF]
  exact ⟨s.loadedFrame bs b, step_loadFrame hroom hd, frameBytes?_loadedFrame bs b s,
    rfl, rfl, rfl, rfl, rfl, rfl, rfl, rfl, rfl, rfl⟩

end Sys2Proof.Machine
end

section
/-!
PROOFS of the codec statements of 30_encoding.md (R72 to R75): decoding a command's own frame, encoding a
decoded command, and the sample frames.
-/

namespace Sys2Proof.Machine

/-! ### Words in a frame (30_encoding.md rule R74) -/

/-- The four bytes of `LE4` make the word again. -/
theorem memRead4_le4 (v : Word) (post : List Byte) : memRead4 (le4 v ++ post) 0 = v := by
  have h : memRead4 (le4 v ++ post) 0 =
      v.extractLsb' 24 8 ++ v.extractLsb' 16 8 ++ v.extractLsb' 8 8 ++ v.extractLsb' 0 8 := rfl
  rw [h, BitVec.extractLsb'_append_extractLsb'_eq_extractLsb' (show 24 = 16 + 8 from rfl),
    BitVec.extractLsb'_append_extractLsb'_eq_extractLsb' (show 16 = 8 + 8 from rfl),
    BitVec.extractLsb'_append_extractLsb'_eq_extractLsb' (show 8 = 0 + 8 from rfl)]
  exact BitVec.extractLsb'_eq_self

/-- A word behind the bytes `pre` is read at their length. -/
theorem memRead4_append (pre F : List Byte) (k : Nat) :
    memRead4 (pre ++ F) (pre.length + k) = memRead4 F k := by
  simp only [memRead4, List.getD_eq_getElem?_getD, Nat.add_assoc,
    List.getElem?_append_right (Nat.le_add_right pre.length _), Nat.add_sub_cancel_left]

/-- Word `j` of a list of words is read at four times its index. -/
theorem memRead4_flatMap_le4 (ws : List Word) {j : Nat} (hj : j < ws.length) :
    memRead4 (ws.flatMap le4) (4 * j) = ws[j] := by
  induction ws generalizing j with
  | nil => simp at hj
  | cons w ws ih =>
    rw [List.flatMap_cons]
    cases j with
    | zero => exact memRead4_le4 w _
    | succ j =>
      rw [show 4 * (j + 1) = (le4 w).length + 4 * j by rw [Laws.FrameLength.length_le4]; omega,
        memRead4_append, ih]
      rfl

/-- `LE4` of a word read from a frame gives its four bytes back. -/
theorem le4_memRead4 {F : List Byte} {i : Nat} (h : i + 4 ≤ F.length) :
    le4 (memRead4 F i) = (F.drop i).take 4 := by
  rw [memRead4, le4_append]
  apply List.ext_getElem
  · simp; omega
  · intro k hk _
    have hlt : k < 4 := by simpa using hk
    interval_cases k <;> simp (disch := omega) [List.getD_eq_getElem?_getD]

/-- Consecutive words read from a frame are its bytes. -/
theorem flatMap_le4_memRead4 {F : List Byte} {i n : Nat} (h : i + 4 * n ≤ F.length) :
    ((List.range n).map fun j => memRead4 F (i + 4 * j)).flatMap le4 = (F.drop i).take (4 * n) := by
  induction n with
  | zero => simp
  | succ n ih =>
    rw [List.range_succ, List.map_append, List.flatMap_append, ih (by omega), List.map_singleton,
      List.flatMap_singleton, le4_memRead4 (by omega), Nat.mul_succ, List.take_add, List.drop_drop]

/-! ### The decoder on ready frames (30_encoding.md rules R72 and R75) -/

/-- A frame that has reached its minimum length is read as a ready frame. -/
theorem decode_of_minLen {ph : Phase} {rem : Word} {op : Byte} {rest : List Byte} {need : Nat}
    (hmin : minLen ph rem (op :: rest) = some need) (hneed : need ≤ (op :: rest).length) :
    decode ph rem (op :: rest) = decodeReady ph need op (rest.getD 0 0) (op :: rest) := by
  rw [decode, hmin]
  exact if_neg (Nat.not_lt.mpr hneed)

/-- The frame of a command is ready exactly with its last byte. -/
theorem minLen_encode (i : Instr) : Laws.FrameLength.Statement i := by
  cases i with
  | ping d => exact Laws.FrameLength.ping d
  | version d => exact Laws.FrameLength.version d
  | devcount d => exact Laws.FrameLength.devcount d
  | idcode d => exact Laws.FrameLength.idcode d
  | usercode d => exact Laws.FrameLength.usercode d
  | prog d L => exact Laws.FrameLength.prog d L
  | setclk d r => exact Laws.FrameLength.setclk d r
  | getclk d => exact Laws.FrameLength.getclk d
  | work d ws => exact Laws.FrameLength.work d ws
  | result d => exact Laws.FrameLength.result d
  | temp d => exact Laws.FrameLength.temp d
  | wreg d a v => exact Laws.FrameLength.wreg d a v
  | rreg d a => exact Laws.FrameLength.rreg d a
  | temp16 d => exact Laws.FrameLength.temp16 d
  | auxshift d n p => exact Laws.FrameLength.auxshift d n p
  | chunk d data => exact Laws.FrameLength.chunk d data

/-- A command's opcode and device byte, and its operand bytes behind them. -/
theorem encode_eq_cons (i : Instr) : ∃ op d operands, encode i = op :: d :: operands := by
  cases i <;> exact ⟨_, _, _, rfl⟩

/-- The words of a Submit-work frame are read at every fourth byte from 2 on. -/
theorem work_words (d : Byte) (ws : List Word) (hw : ws.length = workWords) :
    ((List.range workWords).map fun j => memRead4 (encode (.work d ws)) (2 + 4 * j)) = ws := by
  apply List.ext_getElem
  · simp [hw]
  · intro j _ hj
    rw [List.getElem_map, List.getElem_range]
    exact (memRead4_append [0x08, d] (ws.flatMap le4) (4 * j)).trans (memRead4_flatMap_le4 ws hj)

/-- The operands are read back from a command's own frame. -/
theorem decodeReady_encode {ph : Phase} {rem : Word} {i : Instr} (hw : i.wf = true)
    (hfit : i.fits ph rem) {op d : Byte} {operands : List Byte} (he : encode i = op :: d :: operands) :
    decodeReady ph (encode i).length op d (encode i) = .ok i := by
  cases i with
  | ping | version | devcount | idcode | usercode | getclk | result | temp | temp16 | rreg =>
    cases he
    rfl
  | prog d' L =>
    obtain rfl : ph = .idle := hfit
    cases he
    exact congrArg (fun v => Except.ok (Instr.prog d v)) (memRead4_le4 L [])
  | setclk d' r =>
    cases he
    exact congrArg (fun v => Except.ok (Instr.setclk d v)) (memRead4_le4 r [])
  | wreg d' a v =>
    cases he
    exact congrArg (fun v => Except.ok (Instr.wreg d a v)) (memRead4_le4 v [])
  | work d' ws =>
    cases he
    have hlen : ws.length = workWords := by simpa [Instr.wf, workWords] using hw
    exact congrArg (fun ws => Except.ok (Instr.work d ws)) (work_words d ws hlen)
  | auxshift d' n p =>
    cases he
    have hp : ((encode (.auxshift d n p)).take (encode (.auxshift d n p)).length).drop 3 = p := by
      rw [List.take_length]
      rfl
    exact congrArg (fun p => Except.ok (Instr.auxshift d n p)) hp
  | chunk d' data =>
    obtain ⟨hph, -⟩ := hfit
    cases he
    simp [decodeReady, hph, encode]

/-- Settles O9: a command's frame has its minimum length, so it is read as ready, and each operand is
read where `encode` puts it. -/
theorem decodeOfEncodeIsCommand : Obligations.DecodeOfEncodeIsCommand := by
  unfold Obligations.DecodeOfEncodeIsCommand
  intro ph rem i hw hfit
  have hmin := minLen_encode i ph rem hw hfit
  obtain ⟨op, d, operands, he⟩ := encode_eq_cons i
  have hready := decodeReady_encode hw hfit he
  rw [he] at hmin hready ⊢
  exact (decode_of_minLen hmin le_rfl).trans hready

/-- Every frame has its opcode and its device byte. -/
theorem two_le_of_minLen {ph : Phase} {rem : Word} {F : List Byte} {need : Nat}
    (h : minLen ph rem F = some need) : 2 ≤ need := by
  unfold minLen at h
  split at h
  · cases h
  · split at h
    case h_6 => split at h <;> cases h <;> omega
    case h_15 => split at h <;> cases h <;> omega
    case h_16 => cases h
    all_goals cases h; omega

theorem chunkLen_le (ph : Phase) (rem : Word) : chunkLen ph rem ≤ 32 := by
  cases ph with
  | idle => exact Nat.zero_le 32
  | headerReceived => exact le_rfl
  | streaming => exact Nat.min_le_right _ _

/-- The operands of a ready frame make a well-formed command that the phase admits, and that command's
frame is the bytes up to the minimum length. -/
theorem decodeReady_of_minLen {ph : Phase} {rem : Word} {op d : Byte} {rest : List Byte} {need : Nat}
    (hmin : minLen ph rem (op :: d :: rest) = some need) (hneed : need ≤ (op :: d :: rest).length) :
    ∃ i, decodeReady ph need op d (op :: d :: rest) = .ok i ∧ i.wf = true ∧ i.fits ph rem ∧
      encode i = (op :: d :: rest).take need := by
  have hop : ∀ {k : Byte}, op.toNat = k.toNat → op = k := BitVec.eq_of_toNat_eq
  unfold minLen at hmin
  split at hmin
  · cases hmin
  · rename_i heq
    obtain ⟨rfl, rfl⟩ := List.cons.inj heq
    split at hmin
    case h_1 h =>
      obtain rfl := hop (k := 0x00) h
      cases hmin
      exact ⟨.ping d, rfl, rfl, trivial, rfl⟩
    case h_2 h =>
      obtain rfl := hop (k := 0x01) h
      cases hmin
      exact ⟨.version d, rfl, rfl, trivial, rfl⟩
    case h_3 h =>
      obtain rfl := hop (k := 0x02) h
      cases hmin
      exact ⟨.devcount d, rfl, rfl, trivial, rfl⟩
    case h_4 h =>
      obtain rfl := hop (k := 0x03) h
      cases hmin
      exact ⟨.idcode d, rfl, rfl, trivial, rfl⟩
    case h_5 h =>
      obtain rfl := hop (k := 0x04) h
      cases hmin
      exact ⟨.usercode d, rfl, rfl, trivial, rfl⟩
    case h_6 h =>
      obtain rfl := hop (k := 0x05) h
      by_cases hph : ph = .idle
      · rw [if_pos hph] at hmin
        cases hmin
        exact ⟨.prog d (memRead4 (0x05 :: d :: rest) 2), by simp [decodeReady, hph], rfl, hph,
          congrArg ([0x05, d] ++ ·) (le4_memRead4 hneed)⟩
      · rw [if_neg hph] at hmin
        cases hmin
        have hneed' : 2 + chunkLen ph rem ≤ rest.length + 2 := hneed
        have hdata : (rest.take (chunkLen ph rem)).length = chunkLen ph rem :=
          List.length_take_of_le (by omega)
        exact ⟨.chunk d (rest.take (chunkLen ph rem)), by simp [decodeReady, hph, Nat.add_comm 2],
          by simp [Instr.wf, hdata, chunkLen_le], ⟨hph, hdata⟩, by simp [encode, Nat.add_comm 2]⟩
    case h_7 h =>
      obtain rfl := hop (k := 0x06) h
      cases hmin
      exact ⟨.setclk d (memRead4 (0x06 :: d :: rest) 2), rfl, rfl, trivial,
        congrArg ([0x06, d] ++ ·) (le4_memRead4 hneed)⟩
    case h_8 h =>
      obtain rfl := hop (k := 0x07) h
      cases hmin
      exact ⟨.getclk d, rfl, rfl, trivial, rfl⟩
    case h_9 h =>
      obtain rfl := hop (k := 0x08) h
      cases hmin
      exact ⟨.work d ((List.range workWords).map fun j => memRead4 (0x08 :: d :: rest) (2 + 4 * j)), rfl,
        by simp [Instr.wf, workWords], trivial, congrArg ([0x08, d] ++ ·) (flatMap_le4_memRead4 hneed)⟩
    case h_10 h =>
      obtain rfl := hop (k := 0x09) h
      cases hmin
      exact ⟨.result d, rfl, rfl, trivial, rfl⟩
    case h_11 h =>
      obtain rfl := hop (k := 0x0A) h
      cases hmin
      exact ⟨.temp d, rfl, rfl, trivial, rfl⟩
    case h_12 h =>
      obtain rfl := hop (k := 0x0B) h
      cases hmin
      obtain ⟨a, rest, rfl⟩ := List.exists_cons_of_length_pos (l := rest) (by simp at hneed; omega)
      exact ⟨.wreg d a (memRead4 (0x0B :: d :: a :: rest) 3), rfl, rfl, trivial,
        congrArg ([0x0B, d, a] ++ ·) (le4_memRead4 hneed)⟩
    case h_13 h =>
      obtain rfl := hop (k := 0x0C) h
      cases hmin
      obtain ⟨a, rest, rfl⟩ := List.exists_cons_of_length_pos (l := rest) (by simp at hneed; omega)
      exact ⟨.rreg d a, rfl, rfl, trivial, rfl⟩
    case h_14 h =>
      obtain rfl := hop (k := 0x0D) h
      cases hmin
      exact ⟨.temp16 d, rfl, rfl, trivial, rfl⟩
    case h_15 h =>
      obtain rfl := hop (k := 0x0E) h
      have hlen : ¬ (0x0E :: d :: rest).length < 3 := fun hlt => by
        rw [if_pos hlt] at hmin
        cases hmin
        omega
      rw [if_neg hlen] at hmin
      cases hmin
      obtain ⟨n, rest, rfl⟩ := List.exists_cons_of_length_pos (l := rest) (by simp at hlen; omega)
      have hneed' : 3 + ceil8 n.toNat ≤ rest.length + 3 := hneed
      have hp : (rest.take (ceil8 n.toNat)).length = ceil8 n.toNat := List.length_take_of_le (by omega)
      exact ⟨.auxshift d n (rest.take (ceil8 n.toNat)), by simp [decodeReady, Nat.add_comm 3],
        by simp [Instr.wf, hp], trivial, by simp [encode, Nat.add_comm 3]⟩
    case h_16 => cases hmin

/-- Settles O10: a buffer decodes exactly when it is read as a ready frame, and a ready frame's command
is that frame. -/
theorem encodeOfDecodedCommandIsFrame : Obligations.EncodeOfDecodedCommandIsFrame := by
  unfold Obligations.EncodeOfDecodedCommandIsFrame
  intro ph rem F
  have hready : ∀ {need}, minLen ph rem F = some need → need ≤ F.length →
      ∃ i, decode ph rem F = .ok i ∧ i.wf = true ∧ i.fits ph rem ∧ encode i = F.take need := by
    intro need hmin hneed
    match F, hmin, (two_le_of_minLen hmin).trans hneed, hneed with
    | op :: d :: rest, hmin, _, hneed =>
      rw [decode_of_minLen hmin hneed]
      exact decodeReady_of_minLen hmin hneed
  have hmin : ∀ {i}, decode ph rem F = .ok i →
      ∃ need, minLen ph rem F = some need ∧ need ≤ F.length := by
    intro i h
    obtain ⟨-, -, need, -, hmin, hneed, -⟩ := decode_eq_ok h
    exact ⟨need, hmin, hneed⟩
  refine ⟨⟨fun ⟨i, h⟩ => hmin h, fun ⟨need, hm, hneed⟩ => ?_⟩, fun i h => ?_⟩
  · obtain ⟨i, h, -⟩ := hready hm hneed
    exact ⟨i, h⟩
  · obtain ⟨need, hm, hneed⟩ := hmin h
    obtain ⟨j, hj, hw, hfit, he⟩ := hready hm hneed
    obtain rfl : j = i := Except.ok.inj (hj.symm.trans h)
    exact ⟨hw, hfit, need, hm, he⟩

/-- Settles O11: each recognized sample is the frame that `encode` gives for its command. -/
theorem sampleFramesDecode : Obligations.SampleFramesDecode := by
  unfold Obligations.SampleFramesDecode
  have h := decodeOfEncodeIsCommand
  exact ⟨h .idle 0 (.wreg 0 1 0x12345678) rfl trivial, h .idle 0 (.setclk 0 255) rfl trivial,
    h .idle 0 (.prog 0 64) rfl rfl, h .idle 0 (.rreg 3 1) rfl trivial,
    h .idle 0 (.auxshift 0 12 [0xAB, 0x0C]) rfl trivial,
    h .streaming 2 (.chunk 1 [0xAA, 0xBB]) rfl ⟨Phase.noConfusion, rfl⟩, rfl⟩

end Sys2Proof.Machine
end

section
/-!
PROOFS of the payload statements of 30_encoding.md (R79, R80): the vector indices of a packed value, of two
buffers in a row, and of a buffer with its parity bit.
-/

namespace Sys2Proof.Machine

/-! ### Vector indices -/

theorem vgetT_replicate_zero (n j : Nat) : vgetT (List.replicate n 0) j = false := by
  rw [vgetT, List.getD_eq_getElem?_getD, List.getElem?_replicate]
  split
  · simp
  · simp

/-- Setting a value's bits one after another sets the vector indices whose value bit is 1. -/
theorem vgetT_foldl_vsetT (v : Word) {is : List Nat} {buf : Buffer} (h : ∀ i ∈ is, i / 8 < buf.length)
    (j : Nat) :
    vgetT (is.foldl (fun buf i => if v.getLsbD i then vsetT buf i else buf) buf) j =
      ((decide (j ∈ is) && v.getLsbD j) || vgetT buf j) := by
  induction is generalizing buf with
  | nil => simp
  | cons i is ih =>
    obtain ⟨hi, his⟩ := List.forall_mem_cons.mp h
    rw [List.foldl_cons]
    split
    · rename_i hv
      rw [ih (by simpa using his), vgetT_vsetT hi]
      by_cases hj : j = i <;> simp [hj, hv]
    · rename_i hv
      rw [ih his]
      by_cases hj : j = i <;> simp [hj, hv]

/-- `pack_bits` puts value bit `j` at vector index `j`, and 0 from the width on (R101). -/
theorem vgetT_packBits (v : Word) (w j : Nat) :
    vgetT (packBits v w) j = (decide (j < w) && v.getLsbD j) := by
  have hroom : ∀ i ∈ List.range w, i / 8 < (List.replicate (ceil8 w) (0 : Byte)).length := by
    intro i hi
    rw [List.mem_range] at hi
    rw [List.length_replicate, ceil8]
    omega
  rw [packBits, vgetT_foldl_vsetT v hroom, vgetT_replicate_zero]
  simp

/-- A vector index of the first of two buffers. -/
theorem vgetT_append_left {a : Buffer} (b : Buffer) {j : Nat} (h : j < 8 * a.length) :
    vgetT (a ++ b) j = vgetT a j := by
  rw [vgetT, vgetT, List.getD_append _ _ _ _ (by omega)]

/-- A vector index of the second of two buffers. -/
theorem vgetT_append_right (a b : Buffer) (j : Nat) :
    vgetT (a ++ b) (8 * a.length + j) = vgetT b j := by
  rw [vgetT, vgetT, List.getD_append_right _ _ _ _ (by omega),
    show (8 * a.length + j) / 8 - a.length = j / 8 by omega, Nat.mul_add_mod]

/-! ### Parity -/

/-- The XOR reads the vector indices below the bit count only. -/
theorem parityT_congr {a b : Buffer} {n : Nat} (h : ∀ j, j < n → vgetT a j = vgetT b j) :
    parityT a n = parityT b n := by
  induction n with
  | zero => rfl
  | succ n ih => rw [parityT_succ, parityT_succ, ih fun j hj => h j (by omega), h n (by omega)]

/-- `apply_odd_parity` puts the XOR of the indices below `n` at index `n`, where the buffer has a 0, and
leaves every other index alone (R107). -/
theorem vgetT_applyOddParity {buf : Buffer} {n : Nat} (h : n / 8 < buf.length)
    (h0 : vgetT buf n = false) (j : Nat) :
    vgetT (applyOddParity buf n) j = if j = n then parityT buf n else vgetT buf j := by
  unfold applyOddParity
  split
  · rename_i hp
    rw [vgetT_vsetT h]
    by_cases hj : j = n <;> simp [hj, hp]
  · rename_i hp
    by_cases hj : j = n <;> simp [hj, hp, h0]

/-! ### The two payloads -/

/-- The five packed address bits of a register read. -/
theorem vgetT_packed_read_address (a : Byte) (j : Nat) :
    vgetT (packBits (a.setWidth 32 &&& 0x1F) rdAddrBits) j = (decide (j < 5) && a.getLsbD j) := by
  have hmask : ∀ j, j < 5 → (0x1F#32).getLsbD j = true := by decide
  rw [vgetT_packBits, rdAddrBits]
  by_cases hj : j < 5
  · have h32 : j < 32 := by omega
    simp [hj, h32, hmask j hj]
  · simp [hj]

/-- The register-read payload's vector indices: the five address bits, then their XOR (R79). -/
theorem vgetT_readPayload (a : Byte) (j : Nat) :
    vgetT (readPayload a) j =
      if j = 5 then (a.getLsbD 0 ^^ a.getLsbD 1 ^^ a.getLsbD 2 ^^ a.getLsbD 3 ^^ a.getLsbD 4)
      else (decide (j < 5) && a.getLsbD j) := by
  have hparity : parityT (packBits (a.setWidth 32 &&& 0x1F) rdAddrBits) 5 =
      (a.getLsbD 0 ^^ a.getLsbD 1 ^^ a.getLsbD 2 ^^ a.getLsbD 3 ^^ a.getLsbD 4) := by
    simp only [parityT_succ, vgetT_packed_read_address]
    simp [parityT]
  have h0 : vgetT (packBits (a.setWidth 32 &&& 0x1F) rdAddrBits) 5 = false := by
    rw [vgetT_packed_read_address]
    rfl
  have hroom : 5 / 8 < (packBits (a.setWidth 32 &&& 0x1F) rdAddrBits).length := by
    rw [length_packBits]
    decide
  rw [readPayload, show rdAddrBits = 5 from rfl]
  exact (vgetT_applyOddParity hroom h0 j).trans (by rw [hparity, vgetT_packed_read_address])

/-- Settles O19, by the payload's vector indices. -/
theorem readPayloadLayout : Obligations.ReadPayloadLayout := by
  unfold Obligations.ReadPayloadLayout
  intro a
  refine ⟨?_, fun i hi => ?_, ?_, ?_, ?_⟩
  · rw [readPayload, length_applyOddParity, length_packBits]
    rfl
  · rw [vgetT_readPayload, if_neg (Nat.ne_of_lt hi)]
    simp [hi]
  · rw [vgetT_readPayload, if_pos rfl]
  · rw [vgetT_readPayload]
    rfl
  · rw [vgetT_readPayload]
    rfl

/-- The bits of a register write before its parity: value, address, write flag (R80). -/
def writeBits (addr : Byte) (value : Word) : Buffer :=
  packBits value regBits ++ packBits ((addr.setWidth 32 &&& 0x0F) ||| 0x10) (wrAddrBits + 1)

theorem length_writeBits (a : Byte) (v : Word) : (writeBits a v).length = 5 := by
  rw [writeBits, List.length_append, length_packBits, length_packBits]
  rfl

theorem vgetT_writeBits_value (a : Byte) (v : Word) {i : Nat} (hi : i < 32) :
    vgetT (writeBits a v) i = v.getLsbD i := by
  rw [writeBits, vgetT_append_left _ (by rw [length_packBits]; exact hi), vgetT_packBits]
  simp [regBits, hi]

/-- Indices 32 to 36 hold the low four address bits and the write flag, the two after them 0. -/
theorem vgetT_writeBits_address (a : Byte) (v : Word) (i : Nat) :
    vgetT (writeBits a v) (32 + i) = ((decide (i < 4) && a.getLsbD i) || decide (i = 4)) := by
  have hmask : ∀ i, i < 4 → (0x0F : Word).getLsbD i = true ∧ (0x10 : Word).getLsbD i = false := by
    decide
  have hindex : 32 + i = 8 * (packBits v regBits).length + i := by rw [length_packBits]; rfl
  rw [writeBits, hindex, vgetT_append_right, vgetT_packBits, wrAddrBits]
  rcases Nat.lt_trichotomy i 4 with hi | rfl | hi
  · obtain ⟨hand, hor⟩ := hmask i hi
    rw [BitVec.getLsbD_or, BitVec.getLsbD_and, hand, hor]
    simp [hi, show i < 5 by omega, show i < 32 by omega, Nat.ne_of_lt hi]
  · simp
  · simp [show ¬ i < 5 by omega, show ¬ i < 4 by omega, show i ≠ 4 by omega]

/-- The register-write payload's vector indices: its bits, and their XOR at index 37 (R80). -/
theorem vgetT_writePayload (a : Byte) (v : Word) (j : Nat) :
    vgetT (writePayload a v) j = if j = 37 then parityT (writeBits a v) 37 else vgetT (writeBits a v) j :=
  vgetT_applyOddParity (by rw [length_writeBits]; decide) (vgetT_writeBits_address a v 5) j

/-- Settles O20, by the payload's vector indices. -/
theorem writePayloadLayout : Obligations.WritePayloadLayout := by
  unfold Obligations.WritePayloadLayout
  intro a v
  have hbits : ∀ {j}, j ≠ 37 → vgetT (writePayload a v) j = vgetT (writeBits a v) j := fun hj => by
    rw [vgetT_writePayload, if_neg hj]
  have haddr : ∀ i, i ≠ 5 → vgetT (writePayload a v) (32 + i) =
      ((decide (i < 4) && a.getLsbD i) || decide (i = 4)) := fun i hi => by
    rw [hbits (by omega), vgetT_writeBits_address]
  refine ⟨?_, fun i hi => ?_, fun i hi => ?_, haddr 4 (by decide), ?_, haddr 6 (by decide),
    haddr 7 (by decide)⟩
  · rw [writePayload, length_applyOddParity]
    exact length_writeBits a v
  · rw [hbits (by omega), vgetT_writeBits_value a v hi]
  · rw [haddr i (by omega)]
    simp [hi, Nat.ne_of_lt hi]
  · rw [vgetT_writePayload, if_pos rfl]
    exact parityT_congr fun j hj => (hbits (Nat.ne_of_lt hj)).symm

end Sys2Proof.Machine
end

section
/-!
PROOFS of the whole bitstream transfer (30_encoding.md rule R83, 44_bitstream.md rules R171 to R176): a
frame fed byte by byte runs its command with its last byte, and the frames of PROGRAM follow one another.
-/

namespace Sys2Proof.Machine

/-! ### A frame short of its last byte is not ready (30_encoding.md rule R75) -/

/-- Bytes behind a ready frame do not change its minimum length. -/
theorem minLen_append {ph : Phase} {rem : Word} {F : List Byte} {need : Nat}
    (h : minLen ph rem F = some need) (hneed : need ≤ F.length) (G : List Byte) :
    minLen ph rem (F ++ G) = some need := by
  cases F with
  | nil => cases h
  | cons op rest =>
    rw [List.cons_append]
    unfold minLen at h ⊢
    split at h
    · cases h
    · rename_i heq
      obtain ⟨rfl, rfl⟩ := List.cons.inj heq
      split at h
      case h_15 =>
        split at h
        · cases h; omega
        · rename_i hlen
          have hget : (op :: (rest ++ G)).getD 2 0 = (op :: rest).getD 2 0 :=
            List.getD_append (op :: rest) G 0 2 (by omega)
          have hlen' : ¬ (op :: (rest ++ G)).length < 3 := by simp at hlen ⊢; omega
          rw [if_neg hlen', hget]
          exact h
      case h_16 => cases h
      all_goals exact h

/-- The beginning of a command's frame is no command yet (45_dispatcher.md rule R203). -/
theorem decode_frame_beginning {ph : Phase} {rem : Word} {i : Instr} (hw : i.wf = true)
    (hfit : i.fits ph rem) {P Q : List Byte} (he : encode i = P ++ Q) (hQ : Q ≠ []) :
    ∃ e, decode ph rem P = .error e := by
  cases hd : decode ph rem P with
  | error e => exact ⟨e, rfl⟩
  | ok j =>
    obtain ⟨op, rest, need, -, hmin, hneed, -⟩ := decode_eq_ok hd
    have hready := minLen_encode i ph rem hw hfit
    rw [he, minLen_append hmin hneed] at hready
    have hlen := Option.some.inj hready
    have hpos := List.length_pos_iff.mpr hQ
    rw [List.length_append] at hlen
    omega

/-- No frame is longer than Submit work's 46 bytes (30_encoding.md rule R75). -/
theorem length_encode_le {i : Instr} (hw : i.wf = true) : (encode i).length ≤ 46 := by
  cases i with
  | work d ws =>
    have h : ws.length = 11 := by simpa [Instr.wf] using hw
    simp [encode, h]
  | auxshift d n p =>
    have h : p.length = ceil8 n.toNat := by simpa [Instr.wf] using hw
    simp only [encode, ceil8, h, List.cons_append, List.nil_append, List.length_cons]
    omega
  | chunk d data =>
    have h : data.length ≤ 32 := by simpa [Instr.wf] using hw
    simp [encode]
    omega
  | ping | version | devcount | idcode | usercode | prog | setclk | getclk | result | temp | wreg | rreg
  | temp16 => simp [encode]

/-! ### Bytes received one step after another -/

theorem runSteps_succ {s t : State} (h : step s = .next t) (n : Nat) :
    runSteps (n + 1) s = runSteps n t := by
  refine (Host.Core.run.eq_2 core s n).trans ?_
  rw [show core.step s = .next t from h]
  rfl

/-- `s` after the bytes `bs` have left the input and are buffered, the last of them not yet answered. -/
def State.received (bs : List Byte) (rest : List HostInput) (s : State) : State :=
  { s with
    frame := s.frame.writeRange s.len bs
    len := s.len + bs.length
    host := rest
    outcome := if bs.length ≤ 1 then s.outcome else some .needMore }

@[simp] theorem State.received_phase (bs : List Byte) (rest : List HostInput) (s : State) :
    (s.received bs rest).phase = s.phase := rfl
@[simp] theorem State.received_remaining (bs : List Byte) (rest : List HostInput) (s : State) :
    (s.received bs rest).remaining = s.remaining := rfl
@[simp] theorem State.received_fault (bs : List Byte) (rest : List HostInput) (s : State) :
    (s.received bs rest).fault = s.fault := rfl
@[simp] theorem State.received_host (bs : List Byte) (rest : List HostInput) (s : State) :
    (s.received bs rest).host = rest := rfl
@[simp] theorem State.received_pos (bs : List Byte) (rest : List HostInput) (s : State) :
    (s.received bs rest).pos = s.pos := rfl
@[simp] theorem State.received_capped (bs : List Byte) (rest : List HostInput) (s : State) :
    (s.received bs rest).capped = s.capped := rfl
@[simp] theorem State.received_count (bs : List Byte) (rest : List HostInput) (s : State) :
    (s.received bs rest).count = s.count := rfl
@[simp] theorem State.received_trace (bs : List Byte) (rest : List HostInput) (s : State) :
    (s.received bs rest).trace = s.trace := rfl
@[simp] theorem State.received_nextAnswers (bs : List Byte) (rest : List HostInput) (n : Nat) (s : State) :
    (s.received bs rest).nextAnswers n = s.nextAnswers n := State.nextAnswers_congr n rfl rfl
@[simp] theorem State.received_nextAnswer (bs : List Byte) (rest : List HostInput) (s : State) :
    (s.received bs rest).nextAnswer = s.nextAnswer := rfl
@[simp] theorem State.received_resolve (bs : List Byte) (rest : List HostInput) (s : State) (d : Byte) :
    (s.received bs rest).resolve d = s.resolve d := rfl

/-- The buffered frame grows by the bytes received. -/
theorem frameBytes?_received {s : State} {F : List Byte} (hF : s.frameBytes? = some F) (bs : List Byte)
    (rest : List HostInput) : (s.received bs rest).frameBytes? = some (F ++ bs) := by
  induction bs generalizing s F with
  | nil => rw [List.append_nil]; exact hF
  | cons b bs ih =>
    have h := ih (s := s.append b) (State.frameBytes?_append hF b)
    rw [List.append_cons, ← h]
    simp only [State.frameBytes?, State.received, State.append, List.length_cons, Memory.writeRange]
    rw [Nat.add_assoc, Nat.add_comm 1]

/-- Bytes received behind one that was answered NeedMore. -/
theorem State.received_cons (b : Byte) {bs : List Byte} (hne : bs ≠ []) (rest rest' : List HostInput)
    (s : State) :
    ({ s.received [b] rest' with outcome := some .needMore } : State).received bs rest =
      s.received (b :: bs) rest := by
  have hlen : ¬ bs.length + 1 ≤ 1 := by simpa using hne
  simp only [State.received, Memory.writeRange, List.length_cons, List.length_nil, ite_self, if_neg hlen,
    Nat.add_assoc, Nat.zero_add, Nat.add_comm 1]

/-- A byte below the capacity is buffered and the frame looked at (45_dispatcher.md rule R200). -/
theorem step_runFrame {s : State} {b : Byte} {rest : List HostInput} (hf : s.fault = none)
    (hc : s.ctl = .ready) (hh : s.host = .byte b :: rest) (hl : s.len ≠ Config.frameCap) :
    step s = runFrame (s.received [b] rest) := by
  rw [step_byte hf hc hh, onByte, if_neg hl]
  rfl

theorem runFrame_needMore {s : State} {F : List Byte} {e : DecodeError} (hF : s.frameBytes? = some F)
    (hd : decode s.phase s.remaining F = .error e) :
    runFrame s = .next { s with outcome := some .needMore } := by
  simp only [runFrame, hF, hd]

theorem runFrame_exec {s : State} {F : List Byte} {i : Instr} (hF : s.frameBytes? = some F)
    (hd : decode s.phase s.remaining F = .ok i) : runFrame s = exec i s := by
  simp only [runFrame, hF, hd]

/-- The bytes `w` that complete a buffered part `F` of a command's frame run the command with the last of
them. -/
theorem runSteps_frame {s t : State} {i : Instr} {F w : List Byte} {rest : List HostInput}
    (hf : s.fault = none) (hc : s.ctl = .ready) (hF : s.frameBytes? = some F) (hw : i.wf = true)
    (hfit : i.fits s.phase s.remaining) (he : encode i = F ++ w) (hne : w ≠ [])
    (hh : s.host = w.map HostInput.byte ++ rest) (ht : exec i (s.received w rest) = .next t) (n : Nat) :
    runSteps (w.length + n) s = runSteps n t := by
  induction w generalizing s F with
  | nil => exact absurd rfl hne
  | cons b w ih =>
    have hroom : s.len ≠ Config.frameCap := by
      obtain ⟨hlen, -⟩ := Memory.readRange?_eq_some.mp hF
      have hle := length_encode_le hw
      rw [he, List.length_append, List.length_cons, hlen] at hle
      exact frameCap_ne_small (by omega)
    have hbuffered := frameBytes?_received hF [b] (w.map HostInput.byte ++ rest)
    rw [List.length_cons, Nat.succ_add]
    by_cases hw' : w = []
    · subst hw'
      have hd : decode s.phase s.remaining (F ++ [b]) = .ok i :=
        he ▸ decodeOfEncodeIsCommand _ _ i hw hfit
      rw [List.length_nil, Nat.zero_add]
      exact runSteps_succ ((step_runFrame hf hc hh hroom).trans ((runFrame_exec hbuffered hd).trans ht)) n
    · rw [List.append_cons] at he
      obtain ⟨e, hd⟩ := decode_frame_beginning hw hfit he hw'
      rw [← State.received_cons b hw' rest (w.map HostInput.byte ++ rest)] at ht
      rw [runSteps_succ ((step_runFrame hf hc hh hroom).trans (runFrame_needMore hbuffered hd))]
      exact ih hf hc hbuffered hfit he hw' rfl ht

/-! ### The header and the chunks (44_bitstream.md rules R171 to R174) -/

/-- The transactions and the response of a header whose first polled status is clear (R171). -/
def headerEvents (c : Byte) : List Event :=
  Config.cfgStartSeq.map (CfgOp.event c) ++
    [.scReadIr c, .scWriteIr c Config.irCfgIn, .emit [Config.ackReady]]

/-- A header on a filled slot whose first polled status is clear. -/
theorem exec_prog {s : State} {d c : Byte} (hr : s.resolve d = some c) (hb : pollBusy s.nextAnswer = false)
    (L : Word) :
    exec (.prog d L) s = .next { s.completed (headerEvents c) 1 2 with
      remaining := L, phase := .headerReceived } := by
  have hclear : ¬ (((s.did (Config.cfgStartSeq.map (CfgOp.event c)) 0).nextAnswer.setWidth 6).getLsbD
      Config.statusPollBit.val) = true := by
    rw [Bool.not_eq_true]
    exact hb
  show execProg d L s = _
  rw [execProg, onDevice_some hr, issueStart_eq, pollStatus_eq, if_neg hclear, State.completed,
    State.completed, State.did_did, headerEvents]

/-- A chunk is run in both phases of a transfer. -/
theorem exec_chunk_exists {s : State} {d c : Byte} (hr : s.resolve d = some c) (hp : s.phase ≠ .idle)
    (data : List Byte) : ∃ t, exec (.chunk d data) s = .next t := by
  show ∃ t, execChunk d data s = .next t
  rw [execChunk, onDevice_some hr]
  cases hph : s.phase with
  | idle => exact absurd hph hp
  | headerReceived =>
    show ∃ t, firstChunk c data s = .next t
    unfold firstChunk
    split <;> exact ⟨_, rfl⟩
  | streaming =>
    show ∃ t, laterChunk c data s = .next t
    rw [laterChunk]
    split <;> exact ⟨_, rfl⟩

/-- A chunk that leaves something. -/
theorem exec_chunk {s : State} {d c : Byte} (hr : s.resolve d = some c)
    (hp : (s.phase = .headerReceived ∧ 32 ≤ s.remaining.toNat) ∨
      (s.phase = .streaming ∧ 32 < s.remaining.toNat)) (data : List Byte) :
    exec (.chunk d data) s = .next { s.completed (chunkEvents c data) 0 2 with
      remaining := s.remaining - 32, phase := .streaming } := by
  have hidle : s.phase ≠ .idle := by rcases hp with ⟨hp, -⟩ | ⟨hp, -⟩ <;> simp [hp]
  obtain ⟨t, ht⟩ := exec_chunk_exists hr hidle data
  rw [ht]
  cases exec_next ht with
  | unassigned d' hi hr' => cases hi; simp [hr] at hr'
  | short d' c' data' hi hr' hp' hl => simp [hp'] at hp; omega
  | done events bytes n capped configured hi => exact absurd rfl (hi.2 d data)
  | waits d' c' L hi => cases hi
  | header d' c' L hi => cases hi
  | chunk d' c' data' hi hr' hp' =>
    cases hi
    obtain rfl : c = c' := Option.some.inj (hr.symm.trans hr')
    rfl
  | final d' c' data' hi hr' hp' hl => simp [hp'] at hp; omega

/-- The chunk that leaves nothing, and the end of the transfer. -/
theorem exec_chunk_final {s : State} {d c : Byte} (hr : s.resolve d = some c) (hp : s.phase = .streaming)
    (hl : s.remaining.toNat ≤ 32) {data : List Byte} (hdata : data.length = s.remaining.toNat) :
    exec (.chunk d data) s = .next { s.completed (finalEvents c data s.nextAnswer) 1 0 with
      remaining := 0, phase := .idle } := by
  obtain ⟨t, ht⟩ := exec_chunk_exists hr (by simp [hp]) data
  rw [ht]
  cases exec_next ht with
  | unassigned d' hi hr' => cases hi; simp [hr] at hr'
  | short d' c' data' hi hr' hp' => simp [hp] at hp'
  | done events bytes n capped configured hi => exact absurd rfl (hi.2 d data)
  | waits d' c' L hi => cases hi
  | header d' c' L hi => cases hi
  | chunk d' c' data' hi hr' hp' => simp [hp] at hp'; omega
  | final d' c' data' hi hr' hp' hl' =>
    cases hi
    obtain rfl : c = c' := Option.some.inj (hr.symm.trans hr')
    rw [finalEvents, hdata]

/-! ### Between the frames of a transfer -/

@[simp] theorem State.did_trace (es : List Event) (n : Nat) (s : State) :
    (s.did es n).trace = s.trace ++ es := rfl
@[simp] theorem State.did_capped (es : List Event) (n : Nat) (s : State) :
    (s.did es n).capped = s.capped := by simp [State.did, State.takeAnswers_eq]
@[simp] theorem State.did_host (es : List Event) (n : Nat) (s : State) :
    (s.did es n).host = s.host := by simp [State.did, State.takeAnswers_eq]

@[simp] theorem State.completed_trace (es : List Event) (n keep : Nat) (s : State) :
    (s.completed es n keep).trace = s.trace ++ es := rfl
@[simp] theorem State.completed_capped (es : List Event) (n keep : Nat) (s : State) :
    (s.completed es n keep).capped = s.capped := State.did_capped es n s
@[simp] theorem State.completed_host (es : List Event) (n keep : Nat) (s : State) :
    (s.completed es n keep).host = s.host := State.did_host es n s
@[simp] theorem State.completed_fault (es : List Event) (n keep : Nat) (s : State) :
    (s.completed es n keep).fault = s.fault := State.did_fault es n s

/-- The first bytes of the buffered frame stay in place when the fill length is set back. -/
theorem frameBytes?_of_keep {s t : State} {F : List Byte} (hF : s.frameBytes? = some F)
    (hframe : t.frame = s.frame) (hlen : t.len ≤ F.length) : t.frameBytes? = some (F.take t.len) := by
  obtain ⟨hslen, hread⟩ := Memory.readRange?_eq_some.mp hF
  refine Memory.readRange?_eq_some.mpr ⟨by simpa using hlen, fun i hi => ?_⟩
  rw [hframe, hread i (by omega), List.getElem?_take_of_lt hi]

/-- A transfer of device `d`, at chain position `c`, that waits for its next chunk: the header's two bytes
are retained (10_state.md rule R33). -/
structure AwaitsChunk (d c : Byte) (ph : Phase) (s : State) : Prop where
  fault : s.fault = none
  ctl : s.ctl = .ready
  phase : s.phase = ph
  header : s.frameBytes? = some [0x05, d]
  device : s.resolve d = some c

/-- A header or a chunk that is consumed and keeps the header's bytes leaves the transfer waiting. -/
theorem AwaitsChunk.completed {s : State} {d c : Byte} {w : List Byte} (hf : s.fault = none)
    (hF : s.frameBytes? = some ([0x05, d] ++ w)) (hr : s.resolve d = some c) (es : List Event) (n : Nat)
    (L : Word) (ph : Phase) :
    AwaitsChunk d c ph { s.completed es n 2 with remaining := L, phase := ph } where
  fault := by simpa using hf
  ctl := rfl
  phase := rfl
  header := frameBytes?_of_keep hF (by simp) (by simp)
  device := (State.resolve_congr (by simp) d).trans hr

/-- The state after a chunk that leaves something. -/
def State.afterChunk (c : Byte) (data : List Byte) (rest : List HostInput) (s : State) : State :=
  { (s.received data rest).completed (chunkEvents c data) 0 2 with
    remaining := s.remaining - 32, phase := .streaming }

/-- The state after the chunk that leaves nothing. -/
def State.afterFinalChunk (c : Byte) (data : List Byte) (rest : List HostInput) (s : State) : State :=
  { (s.received data rest).completed (finalEvents c data s.nextAnswer) 1 0 with
    remaining := 0, phase := .idle }

/-- A transfer that waits takes the next chunk byte by byte and runs it with its last byte. -/
theorem AwaitsChunk.runSteps_chunk {d c : Byte} {ph : Phase} {s t : State} {data : List Byte}
    {rest : List HostInput} (h : AwaitsChunk d c ph s) (hph : ph ≠ .idle)
    (hdata : data.length = chunkLen ph s.remaining) (hne : data ≠ [])
    (hh : s.host = data.map HostInput.byte ++ rest)
    (ht : exec (.chunk d data) (s.received data rest) = .next t) (n : Nat) :
    runSteps (data.length + n) s = runSteps n t := by
  have hw : (Instr.chunk d data).wf = true := by simp [Instr.wf, hdata, chunkLen_le]
  have hfit : (Instr.chunk d data).fits s.phase s.remaining := by rw [h.phase]; exact ⟨hph, hdata⟩
  exact runSteps_frame h.fault h.ctl h.header hw hfit rfl hne hh ht n

/-- A chunk of 32 bytes that leaves something. -/
theorem AwaitsChunk.runSteps_afterChunk {d c : Byte} {ph : Phase} {s : State} {data : List Byte}
    {rest : List HostInput} (h : AwaitsChunk d c ph s)
    (hp : (ph = .headerReceived ∧ 32 ≤ s.remaining.toNat) ∨ (ph = .streaming ∧ 32 < s.remaining.toNat))
    (hdata : data.length = 32) (hh : s.host = data.map HostInput.byte ++ rest) (n : Nat) :
    runSteps (32 + n) s = runSteps n (s.afterChunk c data rest) := by
  have hlen : data.length = chunkLen ph s.remaining := by
    rw [hdata]
    rcases hp with ⟨rfl, -⟩ | ⟨rfl, hl⟩
    · rfl
    · exact (Nat.min_eq_right (Nat.le_of_lt hl)).symm
  have hph : ph ≠ .idle := by rcases hp with ⟨rfl, -⟩ | ⟨rfl, -⟩ <;> decide
  rw [← hdata]
  refine h.runSteps_chunk hph hlen (List.ne_nil_of_length_pos (by omega)) hh ?_ n
  exact exec_chunk (s := s.received data rest) h.device (by simpa [h.phase] using hp) data

theorem State.afterChunk_host (c : Byte) (data : List Byte) (rest : List HostInput) (s : State) :
    (s.afterChunk c data rest).host = rest := by
  simp [State.afterChunk]

/-- After a chunk that leaves something the transfer waits for the next one. -/
theorem AwaitsChunk.afterChunk {d c : Byte} {ph : Phase} {s : State} (h : AwaitsChunk d c ph s)
    (data : List Byte) (rest : List HostInput) :
    AwaitsChunk d c .streaming (s.afterChunk c data rest) :=
  .completed (s := s.received data rest) h.fault (frameBytes?_received h.header data rest) h.device _ 0 _ _

/-- The last chunk of a transfer. -/
theorem AwaitsChunk.runSteps_afterFinalChunk {d c : Byte} {s : State} {data : List Byte}
    {rest : List HostInput} (h : AwaitsChunk d c .streaming s) (hl : s.remaining.toNat ≤ 32)
    (hdata : data.length = s.remaining.toNat) (hne : data ≠ [])
    (hh : s.host = data.map HostInput.byte ++ rest) :
    runSteps data.length s = .next (s.afterFinalChunk c data rest) := by
  have hlen : data.length = chunkLen .streaming s.remaining := by rw [hdata]; exact (Nat.min_eq_left hl).symm
  refine h.runSteps_chunk (by decide) hlen hne hh ?_ 0
  exact exec_chunk_final (s := s.received data rest) h.device h.phase hl hdata

/-! ### The rest of an image -/

/-- From `s` to `t` the bytes of `image` have reached the device at chain position `c`, in chunks of 32
bytes and a last one, and the loader is Idle again; `rest` is still to come and the Device Table is as it
was. -/
structure Loaded (c : Byte) (image : List Byte) (rest : List HostInput) (s t : State) : Prop where
  chunks : ∃ (chunks : List (List Byte)) (last : List Byte),
    chunks.flatten ++ last = image ∧ (∀ ch ∈ chunks, ch.length = 32) ∧
    1 ≤ last.length ∧ last.length ≤ 32 ∧
    t.trace = s.trace ++ chunks.flatMap (chunkEvents c) ++ finalEvents c last s.nextAnswer
  idle : t.phase = .idle ∧ t.remaining = 0 ∧ t.len = 0 ∧ t.fault = none ∧ t.ctl = .ready
  host : t.host = rest
  table : t.pos = s.pos ∧ t.capped = s.capped ∧ t.count = s.count

/-- A last chunk alone. -/
theorem Loaded.final {s : State} {last : List Byte} (hf : s.fault = none) (h1 : 1 ≤ last.length)
    (h32 : last.length ≤ 32) (c : Byte) (rest : List HostInput) :
    Loaded c last rest s (s.afterFinalChunk c last rest) where
  chunks := ⟨[], last, rfl, by simp, h1, h32, by simp [State.afterFinalChunk]⟩
  idle := ⟨rfl, rfl, rfl, by simpa [State.afterFinalChunk] using hf, rfl⟩
  host := by simp [State.afterFinalChunk]
  table := by simp [State.afterFinalChunk]

/-- One chunk of 32 bytes before the others. -/
theorem Loaded.cons {c : Byte} {ch image : List Byte} {rest host : List HostInput} {s t : State}
    (h : Loaded c image rest (s.afterChunk c ch host) t) (hch : ch.length = 32) :
    Loaded c (ch ++ image) rest s t where
  chunks := by
    obtain ⟨chunks, last, himage, hchunks, h1, h32, htrace⟩ := h.chunks
    refine ⟨ch :: chunks, last, ?_, ?_, h1, h32, ?_⟩
    · rw [List.flatten_cons, List.append_assoc, himage]
    · simpa using ⟨hch, hchunks⟩
    · have hanswer : (s.afterChunk c ch host).nextAnswer = s.nextAnswer := rfl
      rw [htrace, hanswer]
      simp [State.afterChunk]
  idle := h.idle
  host := h.host
  table := by
    obtain ⟨hpos, hcapped, hcount⟩ := h.table
    exact ⟨hpos.trans (by simp [State.afterChunk]), hcapped.trans (by simp [State.afterChunk]),
      hcount.trans (by simp [State.afterChunk])⟩

/-- A transfer with more than 32 bytes to come takes a chunk of 32, and then the rest as `hrest` says. -/
theorem AwaitsChunk.loaded_cons {d c : Byte} {ph : Phase} {s : State} {image : List Byte}
    {rest : List HostInput} (h : AwaitsChunk d c ph s) (hph : ph ≠ .idle)
    (hrem : s.remaining.toNat = image.length) (hlen : 32 < image.length)
    (hh : s.host = image.map HostInput.byte ++ rest)
    (hrest : ∀ s', AwaitsChunk d c .streaming s' → s'.remaining.toNat = (image.drop 32).length →
      s'.host = (image.drop 32).map HostInput.byte ++ rest →
      ∃ t, runSteps (image.drop 32).length s' = .next t ∧ Loaded c (image.drop 32) rest s' t) :
    ∃ t, runSteps image.length s = .next t ∧ Loaded c image rest s t := by
  have hch : (image.take 32).length = 32 := by rw [List.length_take]; omega
  have hdrop : (image.drop 32).length = image.length - 32 := List.length_drop
  have hp : (ph = .headerReceived ∧ 32 ≤ s.remaining.toNat) ∨
      (ph = .streaming ∧ 32 < s.remaining.toNat) := by
    cases ph with
    | idle => exact absurd rfl hph
    | headerReceived => exact .inl ⟨rfl, by omega⟩
    | streaming => exact .inr ⟨rfl, by omega⟩
  have hhost : s.host = (image.take 32).map HostInput.byte ++
      ((image.drop 32).map HostInput.byte ++ rest) := by
    rw [hh, ← List.append_assoc, ← List.map_append, List.take_append_drop]
  have hrem' : (s.remaining - 32).toNat = (image.drop 32).length := by
    rw [hdrop, ← hrem]
    exact sub_toNat_of_le (k := 32) (by omega)
  obtain ⟨t, hrun, hloaded⟩ := hrest _ (h.afterChunk (image.take 32) _) hrem'
    (State.afterChunk_host c _ _ s)
  refine ⟨t, ?_, List.take_append_drop 32 image ▸ hloaded.cons hch⟩
  rw [show image.length = 32 + (image.drop 32).length by omega, h.runSteps_afterChunk hp hch hhost, hrun]

/-- A Streaming transfer takes what remains of its image (44_bitstream.md rules R173 and R174). -/
theorem AwaitsChunk.loaded {d c : Byte} {s : State} {image : List Byte} {rest : List HostInput}
    (h : AwaitsChunk d c .streaming s) (hrem : s.remaining.toNat = image.length) (hne : image ≠ [])
    (hh : s.host = image.map HostInput.byte ++ rest) :
    ∃ t, runSteps image.length s = .next t ∧ Loaded c image rest s t := by
  induction hlen : image.length using Nat.strong_induction_on generalizing image s with
  | _ len ih =>
    subst hlen
    by_cases hl : image.length ≤ 32
    · exact ⟨s.afterFinalChunk c image rest,
        h.runSteps_afterFinalChunk (hrem ▸ hl) hrem.symm hne hh,
        .final h.fault (List.length_pos_iff.mpr hne) hl c rest⟩
    · have hdrop : (image.drop 32).length = image.length - 32 := List.length_drop
      exact h.loaded_cons (by decide) hrem (by omega) hh fun s' h' hrem' hh' =>
        ih _ (by omega) h' hrem' (List.ne_nil_of_length_pos (by omega)) hh' rfl

/-! ### The bytes of PROGRAM (30_encoding.md rule R83) -/

theorem flatten_chunkList {n : Nat} {image : List Byte} (h : image.length ≤ 32 * n) :
    (chunkList n image).flatten = image := by
  induction n generalizing image with
  | zero => exact (List.eq_nil_of_length_eq_zero (by omega)).symm
  | succ n ih =>
    rw [chunkList, List.flatten_cons, ih (by rw [List.length_drop, chunkBytes]; omega),
      List.take_append_drop]

/-- An image of another length than 32 is sent as its header's frame and its bytes. -/
theorem programWire_eq (d : Byte) {image : List Byte} (h : image.length ≠ 32) (extra : Byte) :
    programWire d image extra = encode (.prog d (BitVec.ofNat 32 image.length)) ++ image := by
  have hflat : (chunkList ((image.length + 31) / chunkBytes) image).flatten = image :=
    flatten_chunkList (by rw [chunkBytes]; omega)
  have hwire : ((chunkList ((image.length + 31) / chunkBytes) image).map (Instr.chunk d)).flatMap wireBytes =
      image := by
    rw [List.flatMap_map]
    exact List.flatMap_id'.trans hflat
  have hne : ¬ image.length = chunkBytes := h
  rw [programWire, programFrames, if_neg hne, if_neg hne, List.append_nil, List.append_nil,
    List.flatMap_append, hwire, List.flatMap_singleton]
  rfl

/-! ### A whole image -/

/-- The state after the header of a transfer of `L` bytes. -/
def State.afterHeader (d c : Byte) (L : Word) (rest : List HostInput) (s : State) : State :=
  { (s.received (encode (.prog d L)) rest).completed (headerEvents c) 1 2 with
    remaining := L, phase := .headerReceived }

/-- An idle session takes a header byte by byte and runs it with its sixth byte. -/
theorem runSteps_afterHeader {s : State} {d c : Byte} {L : Word} {rest : List HostInput}
    (hf : s.fault = none) (hc : s.ctl = .ready) (hp : s.phase = .idle) (hF : s.frameBytes? = some [])
    (hr : s.resolve d = some c) (hb : pollBusy s.nextAnswer = false)
    (hh : s.host = (encode (.prog d L)).map HostInput.byte ++ rest) (n : Nat) :
    runSteps (6 + n) s = runSteps n (s.afterHeader d c L rest) :=
  runSteps_frame (i := .prog d L) hf hc hF rfl hp rfl (List.cons_ne_nil _ _) hh
    (exec_prog (s := s.received (encode (.prog d L)) rest) hr hb L) n

/-- After its header a transfer waits for its first chunk. -/
theorem awaitsChunk_afterHeader {s : State} {d c : Byte} (hf : s.fault = none)
    (hF : s.frameBytes? = some []) (hr : s.resolve d = some c) (L : Word) (rest : List HostInput) :
    AwaitsChunk d c .headerReceived (s.afterHeader d c L rest) :=
  .completed (s := s.received (encode (.prog d L)) rest) hf (frameBytes?_received hF _ rest) hr _ 1 _ _

/-- The header takes one answer, so the next one is the second. -/
theorem nextAnswer_afterHeader (d c : Byte) (L : Word) (rest : List HostInput) (s : State) :
    (s.afterHeader d c L rest).nextAnswer = (s.nextAnswers 2).getD 1 0 := by
  have h := State.nextAnswers_did (headerEvents c) 1 1 (s.received (encode (.prog d L)) rest)
  rw [State.nextAnswers_one, State.received_nextAnswers] at h
  have h2 : (s.nextAnswers 2).getD 1 0 = ((s.nextAnswers 2).drop 1).getD 0 0 := by simp
  rw [h2, ← h]
  rfl

/-- Settles O41: the header, then the first chunk, then the rest of the image by induction on its length. -/
theorem wholeImageReachesDevice : Obligations.WholeImageReachesDevice := by
  unfold Obligations.WholeImageReachesDevice
  intro s d c extra image rest hf hc hp hlen hr h32 hmax hh hb
  have hF : s.frameBytes? = some [] := by rw [State.frameBytes?, hlen]; rfl
  rw [programWire_eq d (by omega) extra, List.map_append, List.append_assoc] at hh
  have hL : (BitVec.ofNat 32 image.length).toNat = image.length := by
    rw [BitVec.toNat_ofNat, Nat.mod_eq_of_lt hmax]
  have hdrop : (image.drop 32).length = image.length - 32 := List.length_drop
  obtain ⟨t, hrun, hloaded⟩ := (awaitsChunk_afterHeader hf hF hr (BitVec.ofNat 32 image.length)
    (image.map HostInput.byte ++ rest)).loaded_cons (rest := rest) (by decide) hL h32
    (by simp [State.afterHeader]) fun s' h' hrem' hh' =>
      h'.loaded hrem' (List.ne_nil_of_length_pos (by omega)) hh'
  obtain ⟨chunks, last, himage, hchunks, h1, hlast, htrace⟩ := hloaded.chunks
  obtain ⟨hphase, hrem, htlen, hfault, hctl⟩ := hloaded.idle
  obtain ⟨hpos, hcapped, hcount⟩ := hloaded.table
  rw [nextAnswer_afterHeader] at htrace
  refine ⟨t, chunks, last, (runSteps_afterHeader hf hc hp hF hr hb hh _).trans hrun, himage, hchunks, h1,
    hlast, htrace.trans ?_, hphase, hrem, htlen, hfault, hctl, hloaded.host, hpos.trans ?_,
    hcapped.trans ?_, hcount.trans ?_⟩
  all_goals simp [State.afterHeader, headerEvents]

end Sys2Proof.Machine
end

section
/-!
PROOFS of the bit codec statements (40_bit_codec.md, R101 to R108): the bits of `pack_bits` and
`unpack_bits`, the bytes of `reverse_bit_order`, and the three tied together by the bytes of a word.
-/

namespace Sys2Proof.Machine

/-! ### Bits of the packed and the unpacked value -/

/-- Settles O12, by what `pack_bits` puts at each vector index. -/
theorem packBitsPlacesEachBit : Obligations.PackBitsPlacesEachBit := by
  unfold Obligations.PackBitsPlacesEachBit
  exact fun v w _ => ⟨length_packBits v w, vgetT_packBits v w⟩

/-- Vector index `8k + m` in the transmit representation is bit `7-m` of byte `k` (R100). -/
theorem vgetT_byte (buf : Buffer) (k : Nat) {m : Nat} (hm : m < 8) :
    vgetT buf (8 * k + m) = (buf.getD k 0).getLsbD (7 - m) := by
  rw [vgetT, show (8 * k + m) / 8 = k by omega, show (8 * k + m) % 8 = m by omega]

/-- Vector index `8k + m` in the register representation is bit `m` of byte `k` (R100). -/
theorem vgetR_byte (buf : Buffer) (k : Nat) {m : Nat} (hm : m < 8) :
    vgetR buf (8 * k + m) = (buf.getD k 0).getLsbD m := by
  rw [vgetR, show (8 * k + m) / 8 = k by omega, show (8 * k + m) % 8 = m by omega]

/-- Collecting vector indices one after another sets the value bits whose vector index is 1. -/
theorem getLsbD_foldl_vgetR (buf : Buffer) {is : List Nat} (h : ∀ i ∈ is, i < 32) (v : Word) (j : Nat) :
    (is.foldl (fun v i => if vgetR buf i then v ||| (1#32 <<< i) else v) v).getLsbD j =
      ((decide (j ∈ is) && vgetR buf j) || v.getLsbD j) := by
  induction is generalizing v with
  | nil => simp
  | cons i is ih =>
    obtain ⟨hi, his⟩ := List.forall_mem_cons.mp h
    have hbit : (1#32 <<< i).getLsbD j = decide (j = i) := by
      rw [← BitVec.twoPow_eq, BitVec.getLsbD_twoPow]
      simp [hi, eq_comm]
    rw [List.foldl_cons, ih his]
    by_cases hj : j = i
    · subst hj
      cases hv : vgetR buf j <;> simp [hbit]
    · split <;> simp [hbit, hj]

/-- `unpack_bits` takes value bit `j` from vector index `j`, and 0 from the width on (R102). -/
theorem getLsbD_unpackBits (buf : Buffer) {w : Nat} (hw : w ≤ 32) (j : Nat) :
    (unpackBits buf w).getLsbD j = (decide (j < w) && vgetR buf j) := by
  have hroom : ∀ i ∈ List.range w, i < 32 := fun i hi => (List.mem_range.mp hi).trans_le hw
  rw [unpackBits, getLsbD_foldl_vgetR buf hroom]
  simp

/-! ### The bytes of a word -/

/-- Byte `k` of `LE4(v)` is `v[8k+7:8k]` (R53). -/
theorem le4_eq_map_range (v : Word) : le4 v = (List.range 4).map fun k => v.extractLsb' (8 * k) 8 := rfl

theorem getLsbD_getD_le4 (v : Word) {k m : Nat} (hk : k < 4) (hm : m < 8) :
    ((le4 v).getD k 0).getLsbD m = v.getLsbD (8 * k + m) := by
  simp [le4_eq_map_range, List.getD_eq_getElem?_getD, hk, hm]

/-- At width 32 `unpack_bits` is the little-endian reading: it undoes `LE4` (R102). -/
theorem unpackBits_le4 (v : Word) : unpackBits (le4 v) 32 = v := by
  apply BitVec.eq_of_getLsbD_eq
  intro i hi
  have hsplit : i = 8 * (i / 8) + i % 8 := by omega
  rw [getLsbD_unpackBits _ (Nat.le_refl 32), hsplit, vgetR_byte _ _ (by omega),
    getLsbD_getD_le4 v (by omega) (by omega), ← hsplit]
  simp [hi]

/-- Unpacking four bytes puts them side by side, the lowest first. -/
theorem unpackBits_bytes (b0 b1 b2 b3 : Byte) :
    unpackBits [b0, b1, b2, b3] 32 = (b3 ++ b2 ++ b1 ++ b0 : BitVec 32) := by
  rw [← le4_append, unpackBits_le4]

theorem toNat_append_byte {w : Nat} (hi : BitVec w) (lo : Byte) :
    (hi ++ lo).toNat = 256 * hi.toNat + lo.toNat := by
  rw [BitVec.toNat_append, ← Nat.shiftLeft_add_eq_or_of_lt lo.isLt, Nat.shiftLeft_eq, Nat.mul_comm]

/-- Settles O13: the bits of the value, and at width 32 the four bytes side by side. -/
theorem unpackBitsTakesEachBit : Obligations.UnpackBitsTakesEachBit := by
  unfold Obligations.UnpackBitsTakesEachBit
  refine ⟨fun buf w hw => getLsbD_unpackBits buf hw, fun b0 b1 b2 b3 => ?_⟩
  rw [unpackBits_bytes, toNat_append_byte, toNat_append_byte, toNat_append_byte]
  omega

/-! ### Reversal of whole bytes -/

/-- What `reverse_bit_order` does to each byte of the buffer (R104). -/
theorem getElem?_reverseBitOrder (buf : Buffer) (n k : Nat) :
    (reverseBitOrder buf n)[k]? = if k < n / 8 then buf[k]?.map rev8 else buf[k]? := by
  by_cases hout : buf.length ≤ k
  · rw [List.getElem?_eq_none (by simpa using hout), List.getElem?_eq_none hout]
    simp
  have hlen : ((buf.take (n / 8)).map rev8).length = min (n / 8) buf.length := by simp
  rw [reverseBitOrder]
  split
  · rw [List.getElem?_append_left (by omega), List.getElem?_map, List.getElem?_take_of_lt ‹_›]
  · rw [List.getElem?_append_right (by omega), hlen, List.getElem?_drop]
    congr 1
    omega

/-- Settles O15, byte by byte. -/
theorem reverseBitOrderReversesWholeBytes : Obligations.ReverseBitOrderReversesWholeBytes := by
  unfold Obligations.ReverseBitOrderReversesWholeBytes
  intro buf n hn
  refine ⟨length_reverseBitOrder buf n, fun k => ⟨fun hk m hm => ?_, fun hk => ?_⟩⟩
  · have hlt : k < buf.length := by omega
    rw [List.getD_eq_getElem?_getD, getElem?_reverseBitOrder, if_pos hk,
      List.getElem?_eq_getElem hlt, List.getD_eq_getElem _ _ hlt]
    exact rev8_getLsbD _ hm
  · rw [List.getD_eq_getElem?_getD, getElem?_reverseBitOrder, if_neg (by omega),
      List.getD_eq_getElem?_getD]

/-- Settles O16: each byte is left alone twice or reversed twice. -/
theorem reverseBitOrderIsInvolution : Obligations.ReverseBitOrderIsInvolution := by
  unfold Obligations.ReverseBitOrderIsInvolution
  intro buf n
  apply List.ext_getElem?
  intro k
  rw [getElem?_reverseBitOrder, getElem?_reverseBitOrder]
  split
  · simp [Function.comp_def]
  · rfl

/-! ### Packing, unpacking and reversal of a whole word -/

/-- `pack_bits` puts value bit `8k + m` at byte `k` bit `7-m` (R106). -/
theorem getLsbD_getD_packBits (v : Word) {k m : Nat} (hk : k < 4) (hm : m < 8) :
    ((packBits v 32).getD k 0).getLsbD (7 - m) = v.getLsbD (8 * k + m) := by
  rw [← vgetT_byte _ k hm, vgetT_packBits]
  simp [show 8 * k + m < 32 by omega]

/-- Byte `k` of a reversed word, read bit by bit (R103). -/
theorem getLsbD_getD_map_rev8_le4 (v : Word) {k m : Nat} (hk : k < 4) (hm : m < 8) :
    (((le4 v).map rev8).getD k 0).getLsbD m = v.getLsbD (8 * k + (7 - m)) := by
  rw [show (0 : Byte) = rev8 0 from rfl, List.getD_map, rev8_getLsbD _ hm,
    getLsbD_getD_le4 v hk (by omega)]

/-- Packing a word reverses the bits of each of its four bytes (R103, R106). -/
theorem packBits_eq_map_rev8_le4 (v : Word) : packBits v 32 = (le4 v).map rev8 := by
  apply List.ext_getElem (length_packBits v 32)
  intro k hk hk'
  rw [length_packBits] at hk
  rw [← List.getD_eq_getElem _ 0, ← List.getD_eq_getElem _ 0]
  apply BitVec.eq_of_getLsbD_eq
  intro m hm
  rw [getLsbD_getD_map_rev8_le4 v hk hm, ← getLsbD_getD_packBits v hk (by omega)]
  congr 1
  omega

/-- Settles O17: `reverse_bit_order` at 32 bits reverses all four bytes. -/
theorem responseIsTransmitRepresentation : Obligations.ResponseIsTransmitRepresentation := by
  unfold Obligations.ResponseIsTransmitRepresentation
  exact fun v => ⟨(packBits_eq_map_rev8_le4 v).symm, fun k m => getLsbD_getD_packBits v⟩

/-- The bytes of an unpacked packed word are the word's bytes, each reversed (R103). -/
theorem le4_unpackBits_packBits (v : Word) :
    le4 (unpackBits (packBits v 32) 32) = (le4 v).map rev8 := by
  rw [packBits_eq_map_rev8_le4]
  exact (congrArg le4 (unpackBits_bytes _ _ _ _)).trans (le4_append _ _ _ _)

theorem le4_injective : Function.Injective le4 :=
  Function.LeftInverse.injective (g := fun buf => unpackBits buf 32) unpackBits_le4

/-- Settles O14: the bytes of the result are the reversed bytes of the value, and a word is its bytes. -/
theorem unpackOfPackReversesEachByte : Obligations.UnpackOfPackReversesEachByte := by
  unfold Obligations.UnpackOfPackReversesEachByte
  intro v
  constructor
  · intro k m hk hm
    rw [← getLsbD_getD_le4 _ hk hm, le4_unpackBits_packBits, getLsbD_getD_map_rev8_le4 v hk hm]
  · rw [← le4_injective.eq_iff, le4_unpackBits_packBits, le4_eq_map_range, List.map_map,
      List.map_inj_left]
    simp only [List.mem_range, Function.comp_apply]

/-! ### Parity -/

/-- Settles O18: the XOR of the indices below `n` and the parity bit, which is that XOR, is 0. -/
theorem parityMakesTotalEven : Obligations.ParityMakesTotalEven := by
  unfold Obligations.ParityMakesTotalEven
  intro buf n hn h0
  have hother : ∀ j, j ≠ n → vgetT (applyOddParity buf n) j = vgetT buf j := fun j hj => by
    rw [vgetT_applyOddParity hn h0, if_neg hj]
  refine ⟨?_, hother⟩
  have hbelow : parityT (applyOddParity buf n) n = parityT buf n :=
    parityT_congr fun j hj => hother j (Nat.ne_of_lt hj)
  rw [parityT_succ, hbelow, vgetT_applyOddParity hn h0, if_pos rfl, Bool.xor_self]

end Sys2Proof.Machine
end

section
/-!
PROOFS of the statement on open shifts (41_scan_access.md rule R128): what a step records inside and
outside a transfer, from `exec_next` for the command and `step_next` for the step.
-/

namespace Sys2Proof.Machine

/-! ### The device of a chunk -/

/-- A ready frame that reads as a chunk gives it the frame's device byte. -/
theorem decodeReady_eq_chunk {ph : Phase} {need : Nat} {op d d' : Byte} {F data : List Byte}
    (h : decodeReady ph need op d F = .ok (.chunk d' data)) : d' = d := by
  unfold decodeReady at h
  split at h
  case h_6 =>
    split at h
    · cases h
    · cases h; rfl
  all_goals cases h

/-- The chunk that a transfer decodes is for the device of the retained header (10_state.md rule R33,
44_bitstream.md rule R180). -/
theorem HeaderKept.read?_of_decode_chunk {s : State} {F data : List Byte} {d : Byte} (h : HeaderKept s)
    (hF : s.frameBytes? = some F) (hd : decode s.phase s.remaining F = .ok (.chunk d data)) :
    Memory.read? s.frame 1 = some d := by
  obtain ⟨h2, -⟩ := h
  obtain ⟨hlen, -⟩ := Memory.readRange?_eq_some.mp hF
  have hread : Memory.read? s.frame 1 = F[1]? := read?_of_frameBytes? hF (by omega)
  obtain ⟨op, rest, need, rfl, -, -, hready⟩ := decode_eq_ok hd
  obtain rfl := decodeReady_eq_chunk hready
  match rest, hlen with
  | d :: rest, _ => exact hread
  | [], hlen => simp only [List.length_singleton] at hlen; omega

/-- A byte appended in a transfer leaves the retained device byte in place. -/
theorem HeaderKept.read?_append {s : State} (h : HeaderKept s) (b : Byte) :
    Memory.read? (s.append b).frame 1 = Memory.read? s.frame 1 :=
  Memory.read?_write_other _ _ (Nat.ne_of_lt h.1)

/-! ### What a step records, for the shift -/

/-- R128 of the events that lead from `s` to `t`: an open shift is a chunk's and leaves the transfer
Streaming on the header's chain, a Streaming transfer goes on with a write to that chain, and the chain
stays the same until the transfer is over. -/
structure ShiftKept (s t : State) (evs : List Event) : Prop where
  trace : t.trace = s.trace ++ evs
  opened : ∀ e ∈ evs, e.opensShift = true → ∃ d c data, evs = chunkEvents c data ∧ t.phase = .streaming ∧
    Memory.read? t.frame 1 = some d ∧ t.resolve d = some c
  continued : s.phase = .streaming → evs = [] ∨ ∃ d c data n last rest,
    evs = .scWriteDr c data n last :: rest ∧ Memory.read? s.frame 1 = some d ∧ s.resolve d = some c
  chain : s.phase ≠ .idle → t.phase ≠ .idle →
    Memory.read? t.frame 1 = Memory.read? s.frame 1 ∧ t.pos = s.pos

/-- Among events that leave every shift closed there is no open one. -/
theorem not_opensShift_of_closed {evs : List Event} {P : Prop} (h : ∀ e ∈ evs, e.opensShift = false) :
    ∀ e ∈ evs, e.opensShift = true → P :=
  fun e he hopen => absurd (hopen.symm.trans (h e he)) (by decide)

/-- Where nothing is recorded, only the retained chain is in question. -/
theorem ShiftKept.of_silent {s t : State} (htrace : t.trace = s.trace)
    (hchain : s.phase ≠ .idle → t.phase ≠ .idle →
      Memory.read? t.frame 1 = Memory.read? s.frame 1 ∧ t.pos = s.pos) : ShiftKept s t [] where
  trace := by rw [htrace, List.append_nil]
  opened _ he := absurd he List.not_mem_nil
  continued _ := .inl rfl
  chain := hchain

/-- Outside a transfer, only the events' own flags are in question. -/
theorem ShiftKept.of_idle {s t : State} {evs : List Event} (hidle : s.phase = .idle)
    (htrace : t.trace = s.trace ++ evs) (hclosed : ∀ e ∈ evs, e.opensShift = false) :
    ShiftKept s t evs where
  trace := htrace
  opened := not_opensShift_of_closed hclosed
  continued hph := absurd (hidle.symm.trans hph) (by decide)
  chain hph := absurd hidle hph

/-- The step's input and an appended byte are no part of the rule. -/
theorem ShiftKept.of_start {s s' t : State} {evs : List Event} (h : ShiftKept s' t evs)
    (htrace : s'.trace = s.trace) (hphase : s'.phase = s.phase) (hpos : s'.pos = s.pos)
    (hread : s.phase ≠ .idle → Memory.read? s'.frame 1 = Memory.read? s.frame 1) :
    ShiftKept s t evs where
  trace := htrace ▸ h.trace
  opened := h.opened
  continued hph := by
    have hcont := h.continued (hphase.trans hph)
    simpa only [hread (by rw [hph]; decide), State.resolve_congr hpos] using hcont
  chain hs ht := by
    obtain ⟨hd, hp⟩ := h.chain (hphase ▸ hs) ht
    exact ⟨hd.trans (hread hs), hp.trans hpos⟩

/-- The start sequence of a header leaves no shift open (log 14). -/
theorem startEvents_closed (c : Byte) {evs : List Event} (h : ∀ e ∈ evs, e.opensShift = false) :
    ∀ e ∈ Config.cfgStartSeq.map (CfgOp.event c) ++ evs, e.opensShift = false := by
  intro e he
  rcases List.mem_append.mp he with hstart | hrest
  · obtain ⟨op, -, rfl⟩ := List.mem_map.mp hstart
    exact (CfgOp.event_facts c op).2
  · exact h e hrest

/-- The command that the buffered frame names keeps the rule: in a transfer it is a chunk for the retained
header's chain, and every other command leaves its shifts closed. -/
theorem Inv.execNext_shiftKept {s t : State} {F : List Byte} {i : Instr} (h : Inv s)
    (hF : s.frameBytes? = some F) (hd : decode s.phase s.remaining F = .ok i) (ht : ExecNext i s t) :
    ∃ evs, ShiftKept s t evs := by
  cases ht with
  | unassigned d hi hr => exact ⟨[], .of_silent rfl fun _ _ => ⟨rfl, rfl⟩⟩
  | short d c data hi hr hp hl => exact ⟨[], .of_silent rfl fun _ _ => ⟨rfl, rfl⟩⟩
  | done events bytes n capped configured hi hr he hl hc hg =>
    have hidle : s.phase = .idle := by
      by_contra hph
      obtain ⟨d, data, rfl⟩ := h.decode_in_transfer hph hF hd
      exact hi.2 d data rfl
    refine ⟨_, .of_idle hidle rfl fun e hmem => ?_⟩
    rcases List.mem_append.mp hmem with hev | hemit
    · exact (he e hev).2
    · rw [List.mem_singleton.mp hemit]; rfl
  | waits d c L hi hr hb =>
    subst hi
    exact ⟨_, .of_idle (decode_eq_prog hd).1 rfl (startEvents_closed c (by simp [Event.opensShift]))⟩
  | header d c L hi hr hb =>
    subst hi
    exact ⟨_, .of_idle (decode_eq_prog hd).1 rfl (startEvents_closed c (by simp [Event.opensShift]))⟩
  | chunk d c data hi hr hp =>
    subst hi
    have hph : s.phase ≠ .idle := by rcases hp with ⟨hp, -⟩ | ⟨hp, -⟩ <;> simp [hp]
    have hdev := (h.transfer hph).2.read?_of_decode_chunk hF hd
    exact ⟨chunkEvents c data,
      { trace := rfl
        opened := fun _ _ _ =>
          ⟨d, c, data, rfl, rfl, by simpa using hdev, (State.resolve_congr (by simp) d).trans hr⟩
        continued := fun _ => .inr ⟨d, c, data, 256, false, _, rfl, hdev, hr⟩
        chain := fun _ _ => ⟨by simp, by simp⟩ }⟩
  | final d c data hi hr hp hl =>
    subst hi
    have hdev := (h.transfer (by simp [hp])).2.read?_of_decode_chunk hF hd
    exact ⟨_,
      { trace := rfl
        opened := not_opensShift_of_closed (by simp [Event.opensShift])
        continued := fun _ => .inr ⟨d, c, data, _, true, _, rfl, hdev, hr⟩
        chain := fun _ hidle => absurd rfl hidle }⟩

/-- A step from a state of the invariant keeps the rule. -/
theorem StepNext.shiftKept {s t : State} (h : Inv s) (ht : StepNext s t) : ∃ evs, ShiftKept s t evs := by
  cases ht with
  | powerOn rest hh => exact ⟨[], .of_silent rfl fun _ hidle => absurd rfl hidle⟩
  | connect rest hh hc => exact ⟨[], .of_silent rfl fun _ hidle => absurd rfl hidle⟩
  | discovered host hf hc hp =>
    obtain ⟨-, -, hidle, -⟩ := (controlOk_discovery_iff hc).mp h.control
    obtain ⟨evs, n, p, cnt, hclosed, heq⟩ := discover_frame { s with host := host }
    exact ⟨evs, .of_idle hidle (by rw [heq]; rfl) fun e he => (hclosed e he).2⟩
  | polled host c L hf hc hp hb =>
    obtain ⟨hidle, -⟩ := (controlOk_polling_iff hc).mp h.control
    exact ⟨_, .of_idle hidle rfl (by simp [Event.opensShift])⟩
  | headerDone host c L hf hc hp hb =>
    obtain ⟨hidle, -⟩ := (controlOk_polling_iff hc).mp h.control
    exact ⟨_, .of_idle hidle rfl (by simp [Event.opensShift])⟩
  | idle host hf hc hp => exact ⟨[], .of_silent rfl fun _ _ => ⟨rfl, rfl⟩⟩
  | overflow b rest hf hc hh hl => exact ⟨[], .of_silent rfl fun _ _ => ⟨rfl, rfl⟩⟩
  | needMore b rest F e hf hc hh hl hF hd =>
    exact ⟨[], .of_silent rfl fun hph _ => ⟨(h.transfer hph).2.read?_append b, rfl⟩⟩
  | ran b rest F i t hf hc hh hl hF hd hi =>
    obtain ⟨evs, hkept⟩ := ((h.withHost rest).append hc hl b).execNext_shiftKept hF hd hi
    exact ⟨evs, hkept.of_start rfl rfl rfl fun hph => (h.transfer hph).2.read?_append b⟩

/-- Settles O60: the rule `ShiftKept` of a step, by `step_next`. -/
theorem onlyChunksLeaveTheShiftOpen : Obligations.OnlyChunksLeaveTheShiftOpen := by
  unfold Obligations.OnlyChunksLeaveTheShiftOpen
  intro s t h hstep
  obtain ⟨evs, hkept⟩ := (step_next hstep).shiftKept h
  exact ⟨evs, hkept.trace, hkept.opened, hkept.continued, hkept.chain⟩

end Sys2Proof.Machine
end

section
/-!
PROOFS of the statements of 42_topology.md: RESOLVE and its fault (R142, R143, R262), the table that
discovery fills (R140, R141), and that no other step touches it (R144).
-/

namespace Sys2Proof.Machine

/-! ### RESOLVE -/

/-- RESOLVE faults where there is no assigned slot. -/
theorem State.resolve_eq_none {s : State} {d : Byte} :
    s.resolve d = none ↔ ∀ h : d.toNat < 5, s.pos[d.toNat] = unassigned := by
  simp only [Option.eq_none_iff_forall_ne_some, ne_eq, State.resolve_eq_some]
  constructor
  · intro hnone h
    by_contra hne
    exact hnone _ ⟨h, rfl, hne⟩
  · rintro hall c ⟨h, rfl, hne⟩
    exact hne (hall h)

/-- A command that resolves a byte does so before anything else (R143). -/
theorem exec_eq_onDevice {i : Instr} {d : Byte} (h : resolvedByte i = some d) (s : State) :
    ∃ body, exec i s = onDevice d s body := by
  cases i with
  | ping | version | devcount | temp | temp16 => cases h
  | idcode | usercode | prog | setclk | getclk | work | result | wreg | rreg | auxshift | chunk =>
    cases h
    exact ⟨_, rfl⟩

/-- Settles O42, by `onDevice_none` for the commands. -/
theorem unassignedDeviceFaultsFirst : Obligations.UnassignedDeviceFaultsFirst := by
  unfold Obligations.UnassignedDeviceFaultsFirst
  refine ⟨fun s d h hne => State.resolve_eq_some.mpr ⟨h, rfl, hne⟩,
    fun s d => State.resolve_eq_none, fun s i d hi hr => ?_⟩
  obtain ⟨body, hexec⟩ := exec_eq_onDevice hi s
  rw [hexec, onDevice_none hr, raiseFault]

/-! ### The table after discovery -/

/-- No command changes a slot's position or the count. -/
theorem ExecNext.keeps_topology {i : Instr} {s t : State} (h : ExecNext i s t) :
    t.pos = s.pos ∧ t.count = s.count := by
  cases h with
  | unassigned | short => exact ⟨rfl, rfl⟩
  | waits | done | header | chunk | final => simp

/-- Settles O54, by the cases of `StepNext`. -/
theorem topologyFixedAfterDiscovery : Obligations.TopologyFixedAfterDiscovery := by
  unfold Obligations.TopologyFixedAfterDiscovery
  intro s t hstep hctl hpower
  cases step_next hstep with
  | powerOn rest hh => exact absurd (by rw [hh]; rfl) hpower
  | discovered host hf hc hp => exact absurd hc hctl
  | connect | idle | overflow | needMore => exact ⟨rfl, rfl⟩
  | polled | headerDone => simp
  | ran b rest F i t hf hc hh hl hF hd ht => exact ht.keeps_topology

/-! ### The live chains -/

@[simp] theorem State.did_remaining (es : List Event) (n : Nat) (s : State) :
    (s.did es n).remaining = s.remaining := by simp [State.did, State.takeAnswers_eq]
@[simp] theorem State.did_configured (es : List Event) (n : Nat) (s : State) :
    (s.did es n).configured = s.configured := by simp [State.did, State.takeAnswers_eq]

/-- The answer that comes after `j` of them were taken. -/
theorem State.nextAnswer_did (es : List Event) {j n : Nat} (h : j < n) (s : State) :
    (s.did es j).nextAnswer = (s.nextAnswers n).getD j 0 := by
  obtain ⟨k, rfl⟩ := Nat.exists_eq_add_of_lt h
  have hdrop := State.nextAnswers_did es j (k + 1) s
  rw [State.nextAnswers, ← Nat.add_assoc] at hdrop
  simpa using congrArg (·.getD 0 0) hdrop

/-- What the probe of chain `c` answers when discovery starts from `s` and reaches that chain: the count
of chains is answered first, then one probe for each chain in order (R140). -/
def State.chainLive (s : State) (c : Nat) : Bool := ((s.nextAnswers (c + 2)).getD (c + 1) 0).getLsbD 0

/-- The live chains below `c`, in increasing order. -/
def State.liveBelow (s : State) (c : Nat) : List Nat := (List.range c).filter s.chainLive

theorem State.liveBelow_succ (s : State) (c : Nat) :
    s.liveBelow (c + 1) = if s.chainLive c then s.liveBelow c ++ [c] else s.liveBelow c := by
  simp only [State.liveBelow, List.range_succ, List.filter_append, List.filter_singleton]
  cases s.chainLive c <;> simp

theorem filter_lt_range {m n : Nat} (h : m ≤ n) :
    (List.range n).filter (fun x => decide (x < m)) = List.range m := by
  rw [← List.Ico.zero_bot, List.Ico.filter_lt, Nat.min_eq_right h, List.Ico.zero_bot]

theorem State.filter_lt_liveBelow (s : State) {m n : Nat} (h : m ≤ n) :
    (s.liveBelow n).filter (fun x => decide (x < m)) = s.liveBelow m := by
  rw [State.liveBelow, List.filter_comm, filter_lt_range h, State.liveBelow]

theorem State.liveBelow_prefix (s : State) {m n : Nat} (h : m ≤ n) :
    s.liveBelow m <+: s.liveBelow n := by
  have hrange : List.range m <+: List.range n := by
    rw [← Nat.min_eq_left h, ← List.take_range]
    exact List.take_prefix ..
  exact hrange.filter _

/-! ### The table that a list of live chains fills -/

/-- The slots filled with the first four of these chains, the others unassigned. -/
def slotsOf (live : List Nat) : Vector Byte 5 :=
  Vector.ofFn fun k => if k.val < 4 then (live[k.val]?.map (BitVec.ofNat 8)).getD unassigned else unassigned

/-- How many slots that fills. -/
def countOf (live : List Nat) : Fin 5 := ⟨min 4 live.length, by omega⟩

theorem slotsOf_get (live : List Nat) (k : Fin 5) : (slotsOf live).get k =
    if k.val < 4 then (live[k.val]?.map (BitVec.ofNat 8)).getD unassigned else unassigned := by
  simp [slotsOf, Vector.get_eq_getElem]

theorem slotsOf_nil : slotsOf [] = State.reset.pos := by decide

/-- A further chain takes the slot after those filled. -/
theorem slotsOf_append_singleton {live : List Nat} (h : live.length < 4) (c : Nat) :
    slotsOf (live ++ [c]) = (slotsOf live).set live.length (BitVec.ofNat 8 c) := by
  ext1 k hk
  simp only [slotsOf, Vector.getElem_ofFn, Vector.getElem_set, List.getElem?_append,
    List.getElem?_singleton]
  rcases lt_trichotomy k live.length with hlt | rfl | hgt
  · simp [hlt, hlt.ne']
  · simp [h]
  · have hsub : k - live.length ≠ 0 := by omega
    simp [hgt.not_gt, hgt.ne, hsub]

/-- Chains after the fourth fill no slot. -/
theorem slotsOf_append {live : List Nat} (h : 4 ≤ live.length) (more : List Nat) :
    slotsOf (live ++ more) = slotsOf live := by
  ext1 k hk
  simp only [slotsOf, Vector.getElem_ofFn]
  by_cases hk4 : k < 4
  · rw [List.getElem?_append_left (Nat.lt_of_lt_of_le hk4 h)]
  · simp [hk4]

theorem countOf_append {live : List Nat} (h : 4 ≤ live.length) (more : List Nat) :
    countOf (live ++ more) = countOf live := by
  simp only [countOf, Fin.mk.injEq, List.length_append]
  omega

/-- The Device Table with these chains and no mark. -/
def State.withTable (live : List Nat) (s : State) : State :=
  { s with pos := slotsOf live, capped := State.reset.capped, count := countOf live }

theorem State.clearTable_eq (s : State) : s.clearTable = s.withTable [] := by
  rw [State.withTable, slotsOf_nil]; rfl

theorem State.nextAnswers_withTable (live : List Nat) (n : Nat) (s : State) :
    (s.withTable live).nextAnswers n = s.nextAnswers n := State.nextAnswers_congr n rfl rfl

/-- A live chain is added while a slot is free. -/
theorem State.addSlot_withTable {live : List Nat} (h : live.length < 4) (c : Nat) (es : List Event)
    (n : Nat) (s : State) : ((s.withTable live).did es n).addSlot (BitVec.ofNat 8 c) =
      (s.withTable (live ++ [c])).did es n := by
  simp [State.addSlot, State.did, State.takeAnswers_eq, State.withTable, countOf, h, h.le,
    slotsOf_append_singleton h]

theorem reset_capped_get (k : Fin 5) : State.reset.capped.get k = false := by
  revert k
  decide

/-! ### Discovery -/

/-- The transactions of discovery up to chain `c`. -/
def discoveryEvents (c : Nat) : List Event :=
  .scChains :: (List.range c).map fun x => .scProbe (BitVec.ofNat 8 x)

/-- Discovery from `s` after the probes of the chains below `c`. -/
def State.probedTo (c : Nat) (s : State) : State :=
  (s.withTable (s.liveBelow c)).did (discoveryEvents c) (c + 1)

/-- Discovery begins with the count of chains and an empty table. -/
theorem scChains_clearTable (s : State) : scChains s.clearTable = (s.nextAnswer, s.probedTo 0) := by
  rw [State.clearTable_eq, scChains, State.record_eq_did, State.takeAnswer_did]
  rfl

/-- The probe of chain `c`, before its answer is used. -/
theorem scProbe_probedTo (c : Nat) (s : State) : scProbe (BitVec.ofNat 8 c) (s.probedTo c) =
    (s.chainLive c, (s.withTable (s.liveBelow c)).did (discoveryEvents (c + 1)) (c + 1 + 1)) := by
  have hevents : discoveryEvents c ++ [.scProbe (BitVec.ofNat 8 c)] = discoveryEvents (c + 1) := by
    simp [discoveryEvents, List.range_succ]
  rw [scProbe, State.probedTo, State.record_did, State.takeAnswer_did, hevents,
    State.nextAnswer_did _ (Nat.lt_succ_self _), State.nextAnswers_withTable, State.chainLive]

/-- Probing goes on while a slot is free. -/
theorem probeFrom_succ_probedTo {c : Nat} {s : State} (h : (s.liveBelow c).length < 4) (k : Nat) :
    probeFrom (k + 1) c (s.probedTo c) = probeFrom k (c + 1) (s.probedTo (c + 1)) := by
  have hopen : (s.probedTo c).count.val ≠ maxLive := by
    rw [State.probedTo, State.did_count]
    exact Nat.ne_of_lt (Nat.lt_of_le_of_lt (Nat.min_le_right ..) h)
  rw [probeFrom, if_neg hopen, scProbe_probedTo, State.probedTo, State.liveBelow_succ]
  cases s.chainLive c with
  | true => simp only [if_true, State.addSlot_withTable h]
  | false => simp

/-- Probing stops when the table is full. -/
theorem probeFrom_full {c : Nat} {s : State} (h : 4 ≤ (s.liveBelow c).length) (k : Nat) :
    probeFrom k c (s.probedTo c) = s.probedTo c := by
  have hfull : (s.probedTo c).count.val = maxLive := by
    rw [State.probedTo, State.did_count]
    exact Nat.min_eq_left h
  cases k with
  | zero => rfl
  | succ k => rw [probeFrom, if_pos hfull]

/-- Probing the chains below `n` from chain `c` on ends at `n`, or at the first chain with four live ones
before it. -/
theorem probeFrom_probedTo {k c n : Nat} {s : State} (hn : c + k = n)
    (hbefore : ∀ x < c, (s.liveBelow x).length < 4) :
    ∃ m ≤ n, probeFrom k c (s.probedTo c) = s.probedTo m ∧ (∀ x < m, (s.liveBelow x).length < 4) ∧
      (m = n ∨ 4 ≤ (s.liveBelow m).length) := by
  induction k generalizing c with
  | zero => exact ⟨c, hn.le, rfl, hbefore, .inl hn⟩
  | succ k ih =>
    by_cases hopen : (s.liveBelow c).length < 4
    · rw [probeFrom_succ_probedTo hopen]
      refine ih (by omega) fun x hx => ?_
      rcases Nat.lt_succ_iff_lt_or_eq.mp hx with hlt | rfl
      · exact hbefore x hlt
      · exact hopen
    · exact ⟨c, by omega, probeFrom_full (by omega) _, hbefore, .inr (by omega)⟩

/-- The chains that discovery from `s` probes: those with fewer than four live ones before them. -/
def State.probed (s : State) : List Nat :=
  (List.range s.nextAnswer.toNat).filter fun c =>
    decide (((s.liveBelow s.nextAnswer.toNat).filter (· < c)).length < 4)

/-- Where probing stops, the chains probed are all those below. -/
theorem State.probed_eq_range {s : State} {m : Nat} (hm : m ≤ s.nextAnswer.toNat)
    (hopen : ∀ x < m, (s.liveBelow x).length < 4)
    (hend : m = s.nextAnswer.toNat ∨ 4 ≤ (s.liveBelow m).length) : s.probed = List.range m := by
  rw [← filter_lt_range hm, State.probed]
  refine List.filter_congr fun c hc => ?_
  have hcn := List.mem_range.mp hc
  rw [s.filter_lt_liveBelow hcn.le, decide_eq_decide]
  refine ⟨fun hlt => ?_, hopen c⟩
  by_contra hmc
  have hlen := (s.liveBelow_prefix (Nat.le_of_not_lt hmc)).length_le
  omega

/-- The chains after those probed leave the table as it is. -/
theorem State.withTable_liveBelow {s : State} {m n : Nat} (hm : m ≤ n)
    (hend : m = n ∨ 4 ≤ (s.liveBelow m).length) :
    s.withTable (s.liveBelow m) = s.withTable (s.liveBelow n) := by
  rcases hend with rfl | h4
  · rfl
  · obtain ⟨more, hmore⟩ := s.liveBelow_prefix hm
    rw [← hmore, State.withTable, State.withTable, slotsOf_append h4, countOf_append h4]

/-- All that discovery does (R140). -/
theorem discover_eq (s : State) : discover s =
    { (s.withTable (s.liveBelow s.nextAnswer.toNat)).did
        (.scChains :: s.probed.map fun c => .scProbe (BitVec.ofNat 8 c)) (s.probed.length + 1) with
      ctl := .ready, outcome := none } := by
  obtain ⟨m, hm, hprobe, hopen, hend⟩ := probeFrom_probedTo (s := s) (Nat.zero_add s.nextAnswer.toNat)
    fun x hx => absurd hx x.not_lt_zero
  rw [discover, scChains_clearTable, hprobe, State.probed_eq_range hm hopen hend, List.length_range,
    ← State.withTable_liveBelow hm hend]
  rfl

/-! ### The step that discovers -/

/-- The live chains, as the answers that stand in line give them. -/
theorem State.liveBelow_eq (s : State) (n : Nat) :
    s.liveBelow n = (List.range n).filter fun c => ((s.nextAnswers (n + 1)).getD (c + 1) 0).getLsbD 0 := by
  refine List.filter_congr fun c hc => ?_
  have hcn := List.mem_range.mp hc
  rw [State.chainLive, ← State.nextAnswer_did [] (by omega), ← State.nextAnswer_did [] (by omega)]

/-- A pause is no answer. -/
theorem State.nextAnswers_dropPause (n : Nat) (s : State) : s.dropPause.nextAnswers n = s.nextAnswers n :=
  State.nextAnswers_congr n s.dropPause_answers s.dropPause_draws

theorem State.nextAnswer_dropPause (s : State) : s.dropPause.nextAnswer = s.nextAnswer := by
  simpa [State.nextAnswers_one] using s.nextAnswers_dropPause 1

/-- Settles O49, by what discovery does after a pause is dropped. -/
theorem discoveryFillsSlotsInOrder : Obligations.DiscoveryFillsSlotsInOrder := by
  unfold Obligations.DiscoveryFillsSlotsInOrder
  intro s hf hc hp n live probed
  have hlive : s.dropPause.liveBelow n = live := by
    rw [State.liveBelow_eq, State.nextAnswers_dropPause]
  have hprobed : s.dropPause.probed = probed := by
    rw [State.probed, State.nextAnswer_dropPause, hlive]
  have hstep : step s = .next (discover s.dropPause) := by
    rw [step_of_running hf hp, stepRunning_discovery hc]
  rw [hstep, discover_eq, State.nextAnswer_dropPause, hlive, hprobed]
  refine ⟨_, rfl, ?_, fun k => ?_, fun k => ?_, ?_, rfl, ?_⟩
  · simp [State.withTable, countOf]
  · simp [State.withTable, slotsOf_get]
  · rw [State.did_capped]
    exact reset_capped_get k
  · simp [State.withTable]
  · simp [State.withTable, hf]

end Sys2Proof.Machine
end

section
/-!
PROOFS of the statements of 43_temperature.md: the reading is most significant bit first (R152), and an
index that names no triple answers zero (R154).
-/

namespace Sys2Proof.Machine

/-! ### The bits of a reading -/

/-- The last sample is shifted in below the others. -/
theorem readingOf_append_singleton (v : BitVec 16) (samples : List Byte) (b : Byte) :
    readingOf v (samples ++ [b]) =
      (readingOf v samples <<< 1) ||| (BitVec.ofBool (b.getLsbD 0)).setWidth 16 := by
  simp only [readingOf, List.foldl_append, List.foldl_cons, List.foldl_nil]

/-- A sample shifted in stands at bit 0 (R152). -/
theorem getLsbD_shiftIn_zero (v : BitVec 16) (b : Bool) :
    ((v <<< 1) ||| (BitVec.ofBool b).setWidth 16).getLsbD 0 = b := by
  simp

/-- Shifting a sample in moves the bits before it up by one place. -/
theorem getLsbD_shiftIn_succ (v : BitVec 16) (b : Bool) (j : Nat) :
    ((v <<< 1) ||| (BitVec.ofBool b).setWidth 16).getLsbD (j + 1) =
      (decide (j + 1 < 16) && v.getLsbD j) := by
  simp

/-- Settles O29, by induction on the samples from the last one: it stands at bit 0, and bit `j + 1` is bit
`j` of the reading of those before it. -/
theorem temperatureIsMostSignificantBitFirst : Obligations.TemperatureIsMostSignificantBitFirst := by
  unfold Obligations.TemperatureIsMostSignificantBitFirst
  intro samples
  induction samples using List.reverseRecOn with
  | nil => intro _ j; simp [readingOf]
  | append_singleton samples b ih =>
    intro hlen j
    rw [List.length_append, List.length_singleton] at hlen
    rw [readingOf_append_singleton, List.length_append, List.length_singleton]
    cases j with
    | zero => rw [getLsbD_shiftIn_zero]; simp
    | succ j =>
      rw [getLsbD_shiftIn_succ, ih (by omega)]
      by_cases hj : j < samples.length
      · have hidx : samples.length + 1 - 1 - (j + 1) = samples.length - 1 - j := by omega
        have hbefore : samples.length - 1 - j < samples.length := by omega
        have h16 : j + 1 < 16 := by omega
        rw [hidx, List.getD_append _ _ _ _ hbefore]
        simp [hj, h16]
      · simp [hj]

/-! ### An index that names no triple -/

/-- A response with no transaction before it ends the command. -/
theorem respond_at_once (bytes : List Byte) (keep : Nat) (s : State) :
    respond bytes keep s = .next (s.completed [.emit bytes] 0 keep) := by
  simpa using respond_did bytes keep [] 0 s

/-- Settles O30: both commands compare the index with `TEMP_DEVICES` before they use a pin. -/
theorem temperatureOfNoTripleIsZero : Obligations.TemperatureOfNoTripleIsZero := by
  unfold Obligations.TemperatureOfNoTripleIsZero
  intro s d hd
  have htemp : execTemp d s = respond [0x00] 0 s := if_pos hd
  have htemp16 : execTemp16 d s = respond [0x00, 0x00] 0 s := if_pos hd
  exact ⟨htemp.trans (respond_at_once ..), htemp16.trans (respond_at_once ..)⟩

end Sys2Proof.Machine
end

section
/-!
PROOFS of the statements of 44_bitstream.md: the status poll of a header (R171, R177), the chunks of a
transfer (R172 to R174, R178, R179), the loader's transitions (R170), and that a transfer decodes nothing
but its chunks (R180).
-/

namespace Sys2Proof.Machine

/-! ### The chunks of a transfer -/

/-- Settles O35, the case of `exec_chunk` in phase HeaderReceived. -/
theorem firstChunkCompletes : Obligations.FirstChunkCompletes := by
  unfold Obligations.FirstChunkCompletes
  intro s d c data hr hp hrem
  exact exec_chunk hr (.inl ⟨hp, hrem⟩) data

/-- Settles O36: the length is compared before anything is written. -/
theorem shortTransferFaults : Obligations.ShortTransferFaults := by
  unfold Obligations.ShortTransferFaults
  intro s d c data hr hp hrem
  calc exec (.chunk d data) s = firstChunk c data s := by
        show execChunk d data s = _
        simp only [execChunk, onDevice_some hr, hp]
    _ = raiseFault .bitstreamShort s := if_pos hrem

/-- Settles O37, the case of `exec_chunk` in phase Streaming, which is kept. -/
theorem laterChunkCompletes : Obligations.LaterChunkCompletes := by
  unfold Obligations.LaterChunkCompletes
  intro s d c data hr hp hrem
  have hphase : Phase.streaming = (s.completed (chunkEvents c data) 0 2).phase := by simp [hp]
  rw [exec_chunk hr (.inr ⟨hp, hrem⟩) data, hphase]

/-- Settles O38, by `exec_chunk_final`. -/
theorem finalChunkCompletes : Obligations.FinalChunkCompletes := by
  unfold Obligations.FinalChunkCompletes
  intro s d c data hr hp hrem hdata
  exact exec_chunk_final hr hp hrem hdata

/-- With nothing remaining the header's two bytes are a ready frame already, so a byte behind them is in no
chunk (R178). -/
theorem decode_swallowed_byte (d b : Byte) : decode .streaming 0 [0x05, d, b] = .ok (.chunk d []) := rfl

/-- Settles O39: the byte is buffered behind the header, and the empty final chunk runs. -/
theorem thirtyTwoByteTransferSwallowsOneByte : Obligations.ThirtyTwoByteTransferSwallowsOneByte := by
  unfold Obligations.ThirtyTwoByteTransferSwallowsOneByte
  intro s d c b rest hf hc hp hrem hF hr hh
  have hroom : s.len ≠ Config.frameCap := by
    obtain ⟨hlen, -⟩ := Memory.readRange?_eq_some.mp hF
    exact frameCap_ne_small (by simp [← hlen])
  have hd : decode (s.received [b] rest).phase (s.received [b] rest).remaining ([0x05, d] ++ [b]) =
      .ok (.chunk d []) := by
    rw [State.received_phase, State.received_remaining, hp, hrem]
    exact decode_swallowed_byte d b
  have hexec := exec_chunk_final (s := s.received [b] rest) (data := []) hr hp
    (by simp [hrem]) (by simp [hrem])
  refine ⟨_, (step_runFrame hf hc hh hroom).trans
    ((runFrame_exec (frameBytes?_received hF [b] rest) hd).trans hexec), rfl, rfl, rfl, ?_, rfl, ?_, rfl⟩
  · simp
  · simpa using hf

/-! ### The status poll -/

/-- A header on a filled slot whose first polled status is busy (R177, log 5). -/
theorem exec_prog_busy {s : State} {d c : Byte} (hr : s.resolve d = some c)
    (hb : pollBusy s.nextAnswer = true) (L : Word) :
    exec (.prog d L) s = .next { s.did (Config.cfgStartSeq.map (CfgOp.event c) ++ [.scReadIr c]) 1 with
      ctl := .polling c L, outcome := none } := by
  have hbusy : ((s.did (Config.cfgStartSeq.map (CfgOp.event c)) 0).nextAnswer.setWidth 6).getLsbD
      Config.statusPollBit.val = true := hb
  show execProg d L s = _
  rw [execProg, onDevice_some hr, issueStart_eq, pollStatus_eq, if_pos hbusy, State.did_did]

/-- Settles O32, by the two answers that the first poll can get. -/
theorem headerPollsTheStatusBit : Obligations.HeaderPollsTheStatusBit := by
  unfold Obligations.HeaderPollsTheStatusBit
  intro s d c L hr
  exact ⟨fun hb => exec_prog hr hb L, fun hb => exec_prog_busy hr hb L⟩

/-- A pause is dropped only where one stands first. -/
theorem State.dropPause_of_ne {s : State} (h : s.host.head? ≠ some .pause) : s.dropPause = s := by
  unfold State.dropPause
  split
  · rename_i hh; simp [hh] at h
  · rfl

/-- `s` after one busy poll of chain `c` for a header of length `L` (R177). -/
def State.polledBusy (c : Byte) (L : Word) (s : State) : State :=
  { s.did [.scReadIr c] 1 with ctl := .polling c L, outcome := none }

@[simp] theorem State.polledBusy_fault (c : Byte) (L : Word) (s : State) :
    (s.polledBusy c L).fault = s.fault := by simp [State.polledBusy]
@[simp] theorem State.polledBusy_host (c : Byte) (L : Word) (s : State) :
    (s.polledBusy c L).host = s.host := by simp [State.polledBusy]

/-- A busy poll takes one answer. -/
theorem State.nextAnswers_succ_polledBusy (c : Byte) (L : Word) (n : Nat) (s : State) :
    s.nextAnswers (n + 1) = s.nextAnswer :: (s.polledBusy c L).nextAnswers n :=
  congrArg (s.nextAnswer :: ·) (State.nextAnswers_congr n rfl rfl)

/-- A command that completes after a busy poll has that poll's transaction before its own. -/
theorem State.completed_polledBusy (c : Byte) (L : Word) (es : List Event) (n keep : Nat) (s : State) :
    (s.polledBusy c L).completed es n keep = s.completed (.scReadIr c :: es) (n + 1) keep := by
  have h := State.did_did [.scReadIr c] es 1 n s
  rw [List.singleton_append, Nat.add_comm 1 n] at h
  rw [State.completed, State.completed, ← h]
  simp [State.polledBusy, State.did, State.consume, State.takeAnswers_eq]

section
variable {s : State} {c : Byte} {L : Word} (hf : s.fault = none) (hc : s.ctl = .polling c L)
  (hpower : s.host.head? ≠ some .powerOn) (hpause : s.host.head? ≠ some .pause)
include hf hc hpower hpause

/-- The step of a sequencer in the poll is one more poll. -/
theorem step_polling : step s = pollStatus c L s := by
  rw [step_of_running hf hpower, stepRunning_polling hc, State.dropPause_of_ne hpause]

theorem step_polling_busy (hb : pollBusy s.nextAnswer = true) : step s = .next (s.polledBusy c L) := by
  rw [step_polling hf hc hpower hpause, pollStatus_eq]
  exact if_pos hb

theorem step_polling_clear (hb : pollBusy s.nextAnswer = false) :
    step s = .next { s.completed [.scReadIr c, .scWriteIr c Config.irCfgIn, .emit [Config.ackReady]] 1 2 with
      remaining := L, phase := .headerReceived } := by
  rw [step_polling hf hc hpower hpause, pollStatus_eq]
  exact if_neg (by rw [Bool.not_eq_true]; exact hb)

end

/-- Settles O33, by induction on the number of busy answers. -/
theorem pollEndsWithFirstClearAnswer : Obligations.PollEndsWithFirstClearAnswer := by
  unfold Obligations.PollEndsWithFirstClearAnswer
  intro s c L n
  induction n generalizing s with
  | zero =>
    intro hf hc hpower hpause _ hclear
    exact runSteps_succ (step_polling_clear hf hc hpower hpause hclear) 0
  | succ n ih =>
    intro hf hc hpower hpause hbusy hclear
    rw [State.nextAnswers_succ_polledBusy c L] at hbusy hclear
    have hfirst : pollBusy s.nextAnswer = true := hbusy 0 n.succ_pos
    have hrest : ∀ k, k < n → pollBusy (((s.polledBusy c L).nextAnswers (n + 1)).getD k 0) = true :=
      fun k hk => hbusy (k + 1) (Nat.succ_lt_succ hk)
    rw [runSteps_succ (step_polling_busy hf hc hpower hpause hfirst),
      ih (s.polledBusy c L) (by simpa using hf) rfl (by simpa using hpower) (by simpa using hpause)
        hrest hclear, State.completed_polledBusy]
    rfl

/-! ### The phases -/

/-- Inside a transfer nothing but a chunk for the retained device is decoded (10_state.md rule R33). -/
theorem HeaderKept.decode_chunk {s : State} {F : List Byte} {i : Instr} (h : HeaderKept s)
    (hph : s.phase ≠ .idle) (hF : s.frameBytes? = some F) (hd : decode s.phase s.remaining F = .ok i) :
    ∃ d data, i = .chunk d data ∧ Memory.read? s.frame 1 = some d := by
  have hop : F[0]? = some 0x05 := by
    obtain ⟨h2, hop, -⟩ := h
    obtain ⟨hlen, -⟩ := Memory.readRange?_eq_some.mp hF
    exact (read?_of_frameBytes? hF (by omega)).symm.trans hop
  obtain ⟨d, data, rfl⟩ := decode_eq_chunk hph hop hd
  exact ⟨d, data, rfl, h.read?_of_decode_chunk hF hd⟩

/-- Settles O58: the appended byte goes behind the retained header. -/
theorem transferTakesEveryByteAsPayload : Obligations.TransferTakesEveryByteAsPayload := by
  unfold Obligations.TransferTakesEveryByteAsPayload
  intro s b F i h hph hF hd
  obtain ⟨-, hkept⟩ := h.transfer hph
  obtain ⟨d, data, rfl, hdev⟩ := (hkept.append b).decode_chunk hph hF hd
  exact ⟨d, data, rfl, (hkept.read?_append b).symm.trans hdev⟩

/-- The loader's own transitions (R170). -/
def LoaderStep (p q : Phase) : Prop :=
  (p = .idle ∧ q = .headerReceived) ∨ (p = .headerReceived ∧ q = .streaming) ∨
    (p = .streaming ∧ q = .idle)

/-- A decoded command keeps the phase or makes one of the loader's transitions. -/
theorem ExecNext.loaderStep {s t : State} {F : List Byte} {i : Instr} (h : ExecNext i s t)
    (hd : decode s.phase s.remaining F = .ok i) (hne : t.phase ≠ s.phase) :
    LoaderStep s.phase t.phase := by
  cases h with
  | unassigned | short => exact absurd rfl hne
  | waits | done => exact absurd (by simp) hne
  | header d c L hi hr hb =>
    subst hi
    exact .inl ⟨(decode_eq_prog hd).1, rfl⟩
  | chunk d c data hi hr hp =>
    rcases hp with ⟨hp, -⟩ | ⟨hp, -⟩
    · exact .inr (.inl ⟨hp, rfl⟩)
    · exact absurd hp.symm hne
  | final d c data hi hr hp hl => exact .inr (.inr ⟨hp, rfl⟩)

/-- Discovery is no part of the loader. -/
theorem discover_phase (s : State) : (discover s).phase = s.phase := by
  obtain ⟨evs, n, p, cnt, -, heq⟩ := discover_frame s
  simp [heq]

/-- A step keeps the phase, makes one of the loader's transitions, or is one of the two resets. -/
theorem StepNext.loaderStep {s t : State} (h : Inv s) (ht : StepNext s t) (hne : t.phase ≠ s.phase) :
    LoaderStep s.phase t.phase ∨
      (t.phase = .idle ∧ (s.host.head? = some .connect ∨ s.host.head? = some .powerOn)) := by
  cases ht with
  | powerOn rest hh => exact .inr ⟨rfl, .inr (by rw [hh]; rfl)⟩
  | connect rest hh hc => exact .inr ⟨rfl, .inl (by rw [hh]; rfl)⟩
  | discovered host hf hc hp => exact absurd (discover_phase _) hne
  | idle | overflow | needMore => exact absurd rfl hne
  | polled => exact absurd (by simp) hne
  | headerDone host c L hf hc hp hb =>
    obtain ⟨hidle, -⟩ := (controlOk_polling_iff hc).mp h.control
    exact .inl (.inl ⟨hidle, rfl⟩)
  | ran b rest F i t hf hc hh hl hF hd hi => exact .inl (hi.loaderStep hd hne)

/-- Settles O57, by `StepNext.loaderStep`. -/
theorem phaseTransitions : Obligations.PhaseTransitions := by
  unfold Obligations.PhaseTransitions
  intro s t h hstep hne
  rcases (step_next hstep).loaderStep h hne with (hload | hload | hload) | hreset
  · exact .inl hload
  · exact .inr (.inl hload)
  · exact .inr (.inr (.inl hload))
  · exact .inr (.inr (.inr hreset))

end Sys2Proof.Machine
end

section
/-!
PROOFS of the statements of 45_dispatcher.md: the one byte that `append` stores (R201), the step of a byte
(R200, R203, R204), that no ready frame waits between bytes (R202), the unrecognized opcodes (R207), and the
one response of a consumed step (R206).
-/

namespace Sys2Proof.Machine

/-! ### Appending a byte (45_dispatcher.md rule R201) -/

theorem onByte_full {s : State} (h : s.len = Config.frameCap) (b : Byte) :
    onByte b s = .next { s with fault := some .frameOverflow, outcome := none } := by
  rw [onByte, if_pos h, raiseFault]

/-- Settles O3, by `Memory.read?_write_same` and `Memory.read?_write_other`. -/
theorem appendStoresOneByteOrOverflows : Obligations.AppendStoresOneByteOrOverflows := by
  unfold Obligations.AppendStoresOneByteOrOverflows
  intro s b
  exact ⟨fun hfull => onByte_full hfull b, fun hroom => ⟨if_neg hroom, rfl,
    Memory.read?_write_same _ _ _, fun a ha => Memory.read?_write_other _ _ ha⟩⟩

/-! ### The step of a byte (R200, R203, R204) -/

/-- Settles O1: below the capacity the step is `runFrame`, and `runFrame` is `exec` of what decodes. -/
theorem stepRunsDecodedCommand : Obligations.StepRunsDecodedCommand := by
  unfold Obligations.StepRunsDecodedCommand
  intro s b rest F i hf hc hh hl hF hd
  exact (step_runFrame hf hc hh hl).trans (runFrame_exec hF hd)

/-- Settles O2: below the capacity the step is `runFrame`, which only sets the outcome. -/
theorem incompleteFrameAnswersNeedMore : Obligations.IncompleteFrameAnswersNeedMore := by
  unfold Obligations.IncompleteFrameAnswersNeedMore
  intro s b rest F e hf hc hh hl hF hd
  exact (step_runFrame hf hc hh hl).trans (runFrame_needMore hF hd)

/-- Settles O40, by the phase. -/
theorem chunkOutsideTransferStops : Obligations.ChunkOutsideTransferStops := by
  unfold Obligations.ChunkOutsideTransferStops
  intro s d c data hr hp
  show execChunk d data s = _
  rw [execChunk, onDevice_some hr, hp]

/-! ### Buffers that are not ready (R75, R202) -/

/-- A buffer holds no command yet exactly when it is short of every minimum length it has. -/
theorem decode_error_iff {ph : Phase} {rem : Word} {F : List Byte} :
    (∃ e, decode ph rem F = .error e) ↔ ∀ need, minLen ph rem F = some need → F.length < need := by
  obtain ⟨hok, -⟩ := encodeOfDecodedCommandIsFrame ph rem F
  constructor
  · rintro ⟨e, he⟩ need hmin
    by_contra hlen
    obtain ⟨i, hi⟩ := hok.mpr ⟨need, hmin, Nat.le_of_not_lt hlen⟩
    rw [hi] at he
    cases he
  · intro hshort
    cases hd : decode ph rem F with
    | error e => exact ⟨e, rfl⟩
    | ok i =>
      obtain ⟨need, hmin, hneed⟩ := hok.mp ⟨i, hd⟩
      exact absurd hneed (Nat.not_le_of_lt (hshort need hmin))

/-- The unrecognized opcodes are those from 0x0F on (30_encoding.md rule R76). -/
theorem minLen_eq_none_iff {ph : Phase} {rem : Word} {op : Byte} {rest : List Byte} :
    minLen ph rem (op :: rest) = none ↔ 0x0F ≤ op.toNat := by
  rw [minLen]
  split
  case h_6 => split <;> simp <;> omega
  case h_15 => split <;> simp <;> omega
  case h_16 =>
    refine ⟨fun _ => ?_, fun _ => rfl⟩
    simp only [imp_false] at *
    omega
  all_goals simp; omega

/-- No minimum length is above Submit work's 46 bytes (30_encoding.md rule R75). -/
theorem minLen_le {ph : Phase} {rem : Word} {F : List Byte} {need : Nat}
    (h : minLen ph rem F = some need) : need ≤ 46 := by
  have hchunk := chunkLen_le ph rem
  have hbits : ceil8 (F.getD 2 0).toNat ≤ 32 := by unfold ceil8; omega
  unfold minLen at h
  split at h
  · cases h
  · split at h
    case h_6 => split at h <;> cases h <;> omega
    case h_15 => split at h <;> cases h <;> omega
    case h_16 => cases h
    all_goals cases h; omega

/-- A minimum length that the bytes `F` reach is already theirs: the bytes behind them do not count. -/
theorem minLen_of_append {ph : Phase} {rem : Word} {F G : List Byte} {need : Nat}
    (h : minLen ph rem (F ++ G) = some need) (hneed : need ≤ F.length) :
    minLen ph rem F = some need := by
  cases F with
  | nil => exact absurd ((two_le_of_minLen h).trans hneed) (by simp)
  | cons op rest =>
    rw [List.cons_append] at h
    unfold minLen at h ⊢
    split at h
    · cases h
    · rename_i heq
      obtain ⟨rfl, rfl⟩ := List.cons.inj heq
      split at h
      case h_15 =>
        have hlen : ¬ (op :: rest).length < 3 := fun hlt => by
          split at h <;> cases h <;> omega
        have hlen' : ¬ (op :: (rest ++ G)).length < 3 := by simp at hlen ⊢; omega
        have hget : (op :: (rest ++ G)).getD 2 0 = (op :: rest).getD 2 0 :=
          List.getD_append (op :: rest) G 0 2 (by omega)
        rw [if_neg hlen', hget] at h
        rw [if_neg hlen]
        exact h
      all_goals exact h

/-! ### The retained header (10_state.md rule R33) -/

/-- The buffered frame of a transfer starts with the retained opcode. -/
theorem HeaderKept.frame_eq_cons {s : State} {F : List Byte} (h : HeaderKept s)
    (hF : s.frameBytes? = some F) : ∃ rest, F = 0x05 :: rest := by
  obtain ⟨h2, hop, -⟩ := h
  obtain ⟨hlen, -⟩ := Memory.readRange?_eq_some.mp hF
  have h0 : F[0]? = some 0x05 := (read?_of_frameBytes? hF (by omega)).symm.trans hop
  cases F with
  | nil => cases h0
  | cons op rest => exact ⟨rest, congrArg (· :: rest) (Option.some.inj h0)⟩

/-- A transfer waits for the two header bytes and the next chunk (R72). -/
theorem HeaderKept.minLen_eq {s : State} {F : List Byte} (h : HeaderKept s) (hph : s.phase ≠ .idle)
    (hF : s.frameBytes? = some F) :
    minLen s.phase s.remaining F = some (2 + chunkLen s.phase s.remaining) := by
  obtain ⟨rest, rfl⟩ := h.frame_eq_cons hF
  simp [minLen, hph]

/-- Only a Streaming transfer of which nothing remains waits for an empty chunk (44_bitstream.md rule R178). -/
theorem chunkLen_eq_zero {ph : Phase} {rem : Word} (hph : ph ≠ .idle) (h : chunkLen ph rem = 0) :
    ph = .streaming ∧ rem = 0 := by
  cases ph with
  | idle => exact absurd rfl hph
  | headerReceived => exact absurd (show 32 = 0 from h) (by decide)
  | streaming =>
    have hrem : rem.toNat = 0 := by
      simp only [chunkLen, chunkBytes] at h
      omega
    exact ⟨rfl, BitVec.eq_of_toNat_eq hrem⟩

/-! ### No ready frame waits between bytes (R202) -/

/-- Below the fill length every byte has been written, so the frame can be read (R22). -/
theorem FrameOk.exists_frameBytes {s : State} (h : FrameOk s) : ∃ F, s.frameBytes? = some F := by
  refine ⟨(List.range s.len).map fun i => (Memory.read? s.frame i).getD 0,
    Memory.readRange?_eq_some.mpr ⟨by simp, fun i hi => ?_⟩⟩
  obtain ⟨b, hb⟩ := Option.isSome_iff_exists.mp (h.written i hi)
  simp [hi, hb]

/-- An empty buffer holds no frame. -/
theorem atRest_of_empty {s : State} (h : s.len = 0) : AtRest s := by
  intro _ _ F hF
  obtain ⟨hlen, -⟩ := Memory.readRange?_eq_some.mp hF
  obtain rfl : F = [] := List.length_eq_zero_iff.mp (hlen.trans h)
  exact .inl ⟨.empty, rfl⟩

/-- The header alone is no ready chunk, unless nothing remains to be awaited. -/
theorem Inv.atRest_of_header {s : State} (h : Inv s) (hph : s.phase ≠ .idle) (hlen : s.len = 2) :
    AtRest s := by
  intro _ _ F hF
  obtain ⟨-, hkept⟩ := h.transfer hph
  have hmin := hkept.minLen_eq hph hF
  obtain ⟨hF2, -⟩ := Memory.readRange?_eq_some.mp hF
  by_cases hzero : chunkLen s.phase s.remaining = 0
  · obtain ⟨hstream, hrem⟩ := chunkLen_eq_zero hph hzero
    exact .inr ⟨hstream, hrem, hlen⟩
  · refine .inl (decode_error_iff.mpr fun need hneed => ?_)
    obtain rfl := Option.some.inj (hmin.symm.trans hneed)
    omega

/-- A command faults, goes on polling, empties the buffer, or leaves the header of a transfer. -/
theorem ExecNext.atRest {i : Instr} {s t : State} (ht : ExecNext i s t) (h : Inv t) : AtRest t := by
  cases ht with
  | unassigned | short => exact fun hf => absurd hf (by simp)
  | waits => exact fun _ hc => absurd hc (by simp)
  | done | final => exact atRest_of_empty rfl
  | header | chunk => exact h.atRest_of_header (by simp) rfl

/-- Discovery leaves the frame buffer's fill length alone. -/
theorem discover_len (s : State) : (discover s).len = s.len := by
  obtain ⟨evs, n, p, cnt, -, heq⟩ := discover_frame s
  simp [heq]

/-- Settles O52, by the cases of `StepNext`; the next state is known to meet the invariant. -/
theorem stepKeepsAtRest : Obligations.StepKeepsAtRest := by
  unfold Obligations.StepKeepsAtRest
  intro s t h hrest hstep
  have h' : Inv t := stepKeepsInv s t h hstep
  cases step_next hstep with
  | powerOn | connect => exact atRest_of_empty rfl
  | discovered host hf hc hp =>
    obtain ⟨-, hempty, -, -⟩ := (controlOk_discovery_iff hc).mp h.control
    exact atRest_of_empty ((discover_len _).trans hempty)
  | polled => exact fun _ hc => absurd hc (by simp)
  | headerDone => exact h'.atRest_of_header (by simp) rfl
  | idle => exact hrest
  | overflow => exact fun hf => absurd hf (by simp)
  | needMore b rest F e hf hc hh hl hF hd =>
    intro _ _ G hG
    obtain rfl : F = G := Option.some.inj (hF.symm.trans hG)
    exact .inl ⟨e, hd⟩
  | ran b rest F i t hf hc hh hl hF hd ht => exact ht.atRest h'

/-- Settles O6: a minimum length that the buffer had reached before the byte would have been a ready frame. -/
theorem commandRunsAtMinimumLength : Obligations.CommandRunsAtMinimumLength := by
  unfold Obligations.CommandRunsAtMinimumLength
  intro s b F i h hrest hf hc hF hd
  obtain ⟨G, hG⟩ := h.frame.exists_frameBytes
  obtain rfl : G ++ [b] = F := Option.some.inj ((State.frameBytes?_append hG b).symm.trans hF)
  rcases hrest hf hc G hG with hunready | ⟨hstream, hrem, hlen⟩
  · obtain ⟨-, -, need, -, hmin, hneed, -⟩ := decode_eq_ok hd
    have hshort : G.length < need := by
      by_contra hle
      exact hle (decode_error_iff.mp hunready need (minLen_of_append hmin (Nat.le_of_not_lt hle)))
    left
    rw [hmin]
    simp at hneed ⊢
    omega
  · right
    obtain ⟨hGlen, -⟩ := Memory.readRange?_eq_some.mp hG
    have hph : s.phase ≠ .idle := by simp [hstream]
    obtain ⟨-, hkept⟩ := h.transfer hph
    refine ⟨hstream, hrem, by simp [hGlen, hlen], ?_⟩
    exact ((hkept.append b).minLen_eq hph hF).trans (by simp [hstream, hrem, chunkLen])

/-! ### The unrecognized opcodes (R76, R201, R207) -/

/-- A full buffer is longer than every minimum length, so it holds a ready frame or an unrecognized opcode. -/
theorem unrecognized_of_full {ph : Phase} {rem : Word} {op : Byte} {rest : List Byte}
    (hfull : 46 ≤ (op :: rest).length) (hd : ∃ e, decode ph rem (op :: rest) = .error e) :
    0x0F ≤ op.toNat := by
  have hnone : minLen ph rem (op :: rest) = none :=
    Option.eq_none_iff_forall_ne_some.mpr fun need hmin => by
      have hshort := decode_error_iff.mp hd need hmin
      have hle := minLen_le hmin
      omega
  exact minLen_eq_none_iff.mp hnone

/-- No command takes FRAME_OVERFLOW (60_exceptions.md rule R261). -/
theorem ExecNext.fault_ne_frameOverflow {i : Instr} {s t : State} (h : ExecNext i s t)
    (hf : s.fault = none) : t.fault ≠ some .frameOverflow := by
  cases h with
  | unassigned | short => simp
  | done | waits | header | chunk | final => simp [hf]

/-- Discovery takes no fault. -/
theorem discover_fault (s : State) : (discover s).fault = s.fault := by
  obtain ⟨evs, n, p, cnt, -, heq⟩ := discover_frame s
  simp [heq]

/-- From an unfaulted state FRAME_OVERFLOW is taken in a ready state with a full buffer only. -/
theorem StepNext.full_of_frameOverflow {s t : State} (h : StepNext s t) (hf : s.fault = none)
    (ht : t.fault = some .frameOverflow) : s.ctl = .ready ∧ s.len = Config.frameCap := by
  cases h with
  | overflow b rest _ hc hh hl => exact ⟨hc, hl⟩
  | powerOn => cases ht
  | connect | idle | needMore => cases hf.symm.trans ht
  | discovered =>
    rw [discover_fault] at ht
    cases hf.symm.trans ht
  | polled | headerDone => simp [hf] at ht
  | ran b rest F i t _ hc hh hl hF hd hi => exact absurd ht (hi.fault_ne_frameOverflow hf)

/-- Settles O4: a full buffer at rest holds no ready frame. -/
theorem onlyUnrecognizedOpcodeOverflows : Obligations.OnlyUnrecognizedOpcodeOverflows := by
  unfold Obligations.OnlyUnrecognizedOpcodeOverflows
  intro s t h hrest hf hstep ht
  obtain ⟨hc, hfull⟩ := (step_next hstep).full_of_frameOverflow hf ht
  obtain ⟨F, hF⟩ := h.frame.exists_frameBytes
  obtain ⟨hlen, -⟩ := Memory.readRange?_eq_some.mp hF
  have hcap : 46 ≤ F.length := by rw [hlen, hfull]; exact Nat.le_add_left _ _
  cases F with
  | nil => simp at hcap
  | cons op rest =>
    refine ⟨op, read?_of_frameBytes? hF (by simp), ?_⟩
    rcases hrest hf hc _ hF with hunready | ⟨-, -, hlen2⟩
    · exact unrecognized_of_full hcap hunready
    · omega

/-- Bytes of which every beginning leaves the frame unready are buffered one after another, each answered
NeedMore (R203). -/
theorem runSteps_unready {s : State} {F w : List Byte} {rest : List HostInput} (hf : s.fault = none)
    (hc : s.ctl = .ready) (hF : s.frameBytes? = some F) (hroom : s.len + w.length ≤ Config.frameCap)
    (hh : s.host = w.map HostInput.byte ++ rest) (hne : w ≠ [])
    (hd : ∀ P Q, w = P ++ Q → P ≠ [] → ∃ e, decode s.phase s.remaining (F ++ P) = .error e) (n : Nat) :
    runSteps (w.length + n) s = runSteps n { s.received w rest with outcome := some .needMore } := by
  induction w generalizing s F with
  | nil => exact absurd rfl hne
  | cons b w ih =>
    rw [List.length_cons] at hroom ⊢
    obtain ⟨e, he⟩ := hd [b] w rfl (List.cons_ne_nil _ _)
    have hbuffered := frameBytes?_received hF [b] (w.map HostInput.byte ++ rest)
    have hstep := (step_runFrame hf hc hh (by omega)).trans (runFrame_needMore hbuffered he)
    rw [Nat.succ_add, runSteps_succ hstep]
    by_cases hw : w = []
    · subst hw
      rw [List.length_nil, Nat.zero_add]
      rfl
    · rw [← State.received_cons b hw rest (w.map HostInput.byte ++ rest)]
      refine ih hf hc hbuffered ?_ rfl hw fun P Q hPQ _ => ?_
      · simp only [State.received, List.length_singleton]
        omega
      · rw [← List.append_cons]
        exact hd (b :: P) Q (by rw [hPQ]; rfl) (List.cons_ne_nil _ _)

/-- Behind an unrecognized opcode no frame becomes ready (30_encoding.md rule R76). -/
theorem decode_unrecognized {op : Byte} (hop : 0x0F ≤ op.toNat) (ph : Phase) (rem : Word)
    (rest : List Byte) : decode ph rem (op :: rest) = .error (.unrecognized op) := by
  rw [decode, minLen_eq_none_iff.mpr hop]

theorem frameBytes?_of_empty {s : State} (h : s.len = 0) : s.frameBytes? = some [] := by
  rw [State.frameBytes?, h, Memory.readRange?]

/-- An unrecognized opcode and the bytes behind it, as far as the buffer has room. -/
theorem runSteps_unrecognized {s : State} {op : Byte} {w : List Byte} {rest : List HostInput}
    (hf : s.fault = none) (hc : s.ctl = .ready) (hempty : s.len = 0) (hop : 0x0F ≤ op.toNat)
    (hroom : w.length + 1 ≤ Config.frameCap)
    (hh : s.host = (op :: w).map HostInput.byte ++ rest) (n : Nat) :
    runSteps (w.length + 1 + n) s =
      runSteps n { s.received (op :: w) rest with outcome := some .needMore } := by
  refine runSteps_unready hf hc (frameBytes?_of_empty hempty) (by simpa [hempty] using hroom) hh
    (List.cons_ne_nil _ _) (fun P Q hPQ hP => ?_) n
  cases P with
  | nil => exact absurd rfl hP
  | cons op' P =>
    obtain ⟨rfl, -⟩ := List.cons.inj hPQ
    exact ⟨_, decode_unrecognized hop _ _ _⟩

/-- A byte for a full buffer (R201). -/
theorem step_full {s : State} {b : Byte} {rest : List HostInput} (hf : s.fault = none)
    (hc : s.ctl = .ready) (hh : s.host = .byte b :: rest) (hfull : s.len = Config.frameCap) :
    step s = .next { s with host := rest, fault := some .frameOverflow, outcome := none } :=
  (step_byte hf hc hh).trans (onByte_full (s := { s with host := rest }) hfull b)

/-- Settles O5, by `runSteps_unrecognized` for the first `k` bytes and then `step_full`. -/
theorem unrecognizedOpcodeFillsThenOverflows : Obligations.UnrecognizedOpcodeFillsThenOverflows := by
  unfold Obligations.UnrecognizedOpcodeFillsThenOverflows
  intro s op extra bytes rest hf hc hempty hop hlen hh
  refine ⟨fun k h1 hk => ?_, ?_⟩
  · obtain ⟨m, rfl⟩ := Nat.exists_eq_add_of_le' h1
    have hm : (bytes.take m).length = m := List.length_take_of_le (by omega)
    have hsplit : s.host = (op :: bytes.take m).map HostInput.byte ++
        ((bytes.drop m).map HostInput.byte ++ .byte extra :: rest) := by
      rw [hh, ← List.append_assoc, ← List.map_append, List.cons_append, List.take_append_drop]
    have hrun := runSteps_unrecognized hf hc hempty hop (by omega) hsplit 0
    rw [hm] at hrun
    exact ⟨_, hrun, rfl, by simp [State.received, hempty, hm], rfl, hf⟩
  · have hfull : s.len + (op :: bytes).length = Config.frameCap := by
      rw [hempty, Nat.zero_add]
      exact hlen
    have hover := step_full (s := { s.received (op :: bytes) (.byte extra :: rest) with
      outcome := some .needMore }) hf hc rfl hfull
    have hrun := runSteps_unrecognized hf hc hempty hop hlen.le hh 1
    rw [hlen, runSteps_succ hover] at hrun
    exact ⟨_, hrun, rfl, hfull, rfl⟩

/-- Settles O7: one byte of a Ping is not ready, and two run it. -/
theorem pingFedByteByByte : Obligations.PingFedByteByByte := by
  unfold Obligations.PingFedByteByByte
  intro s d rest hf hc hempty hh
  have hF := frameBytes?_of_empty hempty
  have hroom : s.len ≠ Config.frameCap := frameCap_ne_small (by rw [hempty]; decide)
  have hfirst := runSteps_succ (incompleteFrameAnswersNeedMore s 0x00 (.byte d :: rest) [0x00]
    (.incomplete 1 2) hf hc hh hroom (State.frameBytes?_append hF 0x00) rfl) 0
  have hsecond := runSteps_frame (i := .ping d) (w := [0x00, d]) hf hc hF rfl trivial rfl
    (List.cons_ne_nil _ _) hh rfl 0
  exact ⟨⟨_, hfirst, rfl, by simp [hempty], rfl⟩, ⟨_, hsecond, rfl, rfl, rfl⟩⟩

/-! ### What a step records, by what it answers (R206) -/

/-- What stands in the record after a step: nothing new; transactions, where `on_byte` has not returned; or
the transactions of a consumed command and its response behind them. -/
inductive Answered (s t : State) : Prop where
  | silent (htrace : t.trace = s.trace) (hout : t.outcome ≠ some .consumed)
  | running (evs : List Event) (htrace : t.trace = s.trace ++ evs) (hquiet : ∀ e ∈ evs, e.isEmit = false)
      (hout : t.outcome = none) (hfault : t.fault = s.fault)
  | consumed (evs : List Event) (bytes : List Byte) (htrace : t.trace = s.trace ++ evs ++ [.emit bytes])
      (hquiet : ∀ e ∈ evs, e.isEmit = false) (hout : t.outcome = some .consumed)
      (hfault : t.fault = s.fault)

/-- The step's input and an appended byte are no part of the record. -/
theorem Answered.of_start {s s' t : State} (h : Answered s' t) (htrace : s'.trace = s.trace)
    (hfault : s'.fault = s.fault) : Answered s t := by
  cases h with
  | silent ht hout => exact .silent (ht.trans htrace) hout
  | running evs ht hquiet hout hf => exact .running evs (htrace ▸ ht) hquiet hout (hf.trans hfault)
  | consumed evs bytes ht hquiet hout hf =>
    exact .consumed evs bytes (htrace ▸ ht) hquiet hout (hf.trans hfault)

/-- The start sequence of a header is transactions only. -/
theorem startEvents_quiet (c : Byte) {evs : List Event} (h : ∀ e ∈ evs, e.isEmit = false) :
    ∀ e ∈ Config.cfgStartSeq.map (CfgOp.event c) ++ evs, e.isEmit = false := by
  intro e he
  rcases List.mem_append.mp he with hstart | hrest
  · obtain ⟨op, -, rfl⟩ := List.mem_map.mp hstart
    exact (CfgOp.event_facts c op).1
  · exact h e hrest

/-- A command faults with nothing recorded, goes on polling, or is consumed with one response. -/
theorem ExecNext.answered {i : Instr} {s t : State} (h : ExecNext i s t) : Answered s t := by
  cases h with
  | unassigned | short => exact .silent rfl (by simp)
  | done events bytes n capped configured hi hr he hl hc hg =>
    exact .consumed events bytes (by simp) (fun e hmem => (he e hmem).1) rfl (by simp)
  | waits d c L hi hr hb =>
    exact .running _ rfl (startEvents_quiet c (by simp [Event.isEmit])) rfl (by simp)
  | header d c L hi hr hb =>
    exact .consumed (Config.cfgStartSeq.map (CfgOp.event c) ++ [.scReadIr c, .scWriteIr c Config.irCfgIn])
      [Config.ackReady] (by simp) (startEvents_quiet c (by simp [Event.isEmit])) rfl (by simp)
  | chunk d c data hi hr hp =>
    exact .consumed [.scWriteDr c data 256 false] [Config.ackChunk] (by simp [chunkEvents])
      (by simp [Event.isEmit]) rfl (by simp)
  | final d c data hi hr hp hl =>
    exact .consumed [.scWriteDr c data (8 * s.remaining.toNat) true, .scWriteIr c Config.irJstart,
      .scRun c 16, .scReadIr c] [resultByte s.nextAnswer] (by simp) (by simp [Event.isEmit]) rfl (by simp)

theorem StepNext.answered {s t : State} (h : StepNext s t) : Answered s t := by
  cases h with
  | powerOn => exact .silent rfl (by simp [State.reset])
  | connect | idle | overflow | needMore => exact .silent rfl (by simp)
  | discovered host hf hc hp =>
    obtain ⟨evs, n, p, cnt, hquiet, heq⟩ := discover_frame { s with host := host }
    rw [heq]
    exact .running evs rfl (fun e he => (hquiet e he).1) rfl (by simp)
  | polled host c L hf hc hp hb =>
    exact .running [.scReadIr c] rfl (by simp [Event.isEmit]) rfl (by simp)
  | headerDone host c L hf hc hp hb =>
    exact .consumed [.scReadIr c, .scWriteIr c Config.irCfgIn] [Config.ackReady] (by simp)
      (by simp [Event.isEmit]) rfl (by simp)
  | ran b rest F i t hf hc hh hl hF hd hi => exact hi.answered.of_start rfl rfl

/-- Settles O56, by the cases of `Answered`. -/
theorem consumedStepSendsOneResponseLast : Obligations.ConsumedStepSendsOneResponseLast := by
  unfold Obligations.ConsumedStepSendsOneResponseLast
  intro s t hstep
  cases (step_next hstep).answered with
  | silent htrace hout =>
    exact ⟨fun h => absurd h hout, fun _ => htrace, fun _ _ => htrace,
      fun _ => ⟨[], by simp [htrace], by simp⟩⟩
  | running evs htrace hquiet hout hfault =>
    exact ⟨by simp [hout], by simp [hout], fun hf hft => absurd (hfault.trans hf) hft,
      fun _ => ⟨evs, htrace, hquiet⟩⟩
  | consumed evs bytes htrace hquiet hout hfault =>
    exact ⟨fun _ => ⟨evs, bytes, htrace, hquiet⟩, by simp [hout],
      fun hf hft => absurd (hfault.trans hf) hft, by simp [hout]⟩

end Sys2Proof.Machine
end

section
/-!
PROOFS of the statements of 46_commands.md: each command on a filled slot answers a next state with its
transactions and its response (R220 to R234), and the frame of every command (10_state.md section 8).
-/

namespace Sys2Proof.Machine

/-! ### The response of a 32-bit capture (20_memory.md rule R53, 30_encoding.md rule R78) -/

/-- `LE4` gives back the four captured bytes. -/
theorem le4_unpackBits {bs : List Byte} (h : bs.length = 4) : le4 (unpackBits bs 32) = bs := by
  obtain ⟨b0, b1, b2, b3, rfl⟩ := List.length_eq_four.mp h
  rw [unpackBits_bytes, le4_append]

/-- `RB4` reverses the bits of each of the four bytes. -/
theorem rb4_eq_map_rev8 (v : Word) : rb4 v = (le4 v).map rev8 := rfl

/-- The response to a 32-bit capture is its bytes, each bit-reversed (R125). -/
theorem rb4_unpackBits {bs : List Byte} (h : bs.length = 4) : rb4 (unpackBits bs 32) = bs.map rev8 := by
  rw [rb4_eq_map_rev8, le4_unpackBits h]

/-- The mask of Read result clears the last byte and keeps the others (R229). -/
theorem le4_maskResult_true (v : Word) : le4 (maskResult true v) = (le4 v).take 3 ++ [0x00] := by
  simp only [maskResult, if_true, le4, BitVec.extractLsb'_and, List.take_succ_cons, List.take_zero,
    List.cons_append, List.nil_append, List.cons.injEq, and_true]
  refine ⟨?_, ?_, ?_, ?_⟩
  · exact BitVec.and_allOnes
  · exact BitVec.and_allOnes
  · exact BitVec.and_allOnes
  · exact BitVec.and_zero

/-- Read result's response: the last byte is 0 where the slot is clock-capped. -/
theorem rb4_maskResult_unpackBits {bs : List Byte} (h : bs.length = 4) (capped : Bool) :
    rb4 (maskResult capped (unpackBits bs 32)) =
      if capped then (bs.take 3).map rev8 ++ [0x00] else bs.map rev8 := by
  cases capped with
  | false => exact rb4_unpackBits h
  | true =>
    rw [rb4_eq_map_rev8, le4_maskResult_true, le4_unpackBits h, List.map_append]
    rfl

/-! ### Marks and configuration beside a sequence of transactions -/

@[simp] theorem State.completed_remaining (es : List Event) (n keep : Nat) (s : State) :
    (s.completed es n keep).remaining = s.remaining := State.did_remaining es n s
@[simp] theorem State.completed_configured (es : List Event) (n keep : Nat) (s : State) :
    (s.completed es n keep).configured = s.configured := State.did_configured es n s

theorem State.setCapped_of_lt {d : Byte} (h : d.toNat < 5) (b : Bool) (s : State) :
    s.setCapped d b = { s with capped := s.capped.set d.toNat b } := dif_pos h

theorem State.isCapped_of_lt {d : Byte} (h : d.toNat < 5) (s : State) :
    s.isCapped d = s.capped[d.toNat] := dif_pos h

/-- A mark written before the transactions stands after them as well. -/
theorem State.completed_withCapped (capped : Vector Bool 5) (es : List Event) (n keep : Nat) (s : State) :
    ({ s with capped := capped } : State).completed es n keep =
      { s.completed es n keep with capped := capped } := by
  simp [State.completed, State.did, State.takeAnswers_eq, State.consume]

/-- A response after transactions and the temperature configuration. -/
theorem respond_did_withConfigured (configured : Bool) (bytes : List Byte) (keep : Nat) (es : List Event)
    (n : Nat) (s : State) :
    respond bytes keep { s.did es n with configured := configured } =
      .next { s.completed (es ++ [.emit bytes]) n keep with configured := configured } := by
  rw [State.completed, ← State.record_did]
  rfl

/-! ### The commands that touch no device -/

/-- Each character of `VERSION_STRING` has 7 bits (00_scope.md rule R7). -/
theorem versionString_ascii {b : Byte} (h : b ∈ Config.versionString) : b.toNat < 128 := by
  obtain ⟨x, -, rfl⟩ := List.mem_map.mp h
  rw [BitVec.toNat_setWidth_of_le (by decide)]
  exact x.isLt

/-- Settles O21: each command responds at once. -/
theorem sessionCommandsComplete : Obligations.SessionCommandsComplete := by
  unfold Obligations.SessionCommandsComplete
  refine ⟨List.cons_ne_nil _ _, fun b => versionString_ascii, fun s d => ⟨?_, ?_, ?_⟩⟩
  · exact respond_at_once _ 0 s
  · exact respond_at_once _ 0 s
  · exact respond_at_once _ 0 s

/-! ### The commands that read -/

/-- The end of IDCODE and USERCODE on chain `c` (R223, R224). -/
theorem respond_readCode (c : Byte) (ir : IrCode) (s : State) :
    respond (rb4 (readCode c ir s).1) 0 (readCode c ir s).2 = .next (s.completed
      [.scWriteIr c ir, .scReadDr c 32 [0, 0, 0, 0], .scReset c, .emit ((s.nextAnswers 4).map rev8)]
      4 0) := by
  rw [readCode_eq, rb4_unpackBits (s.length_nextAnswers 4), respond_did]
  rfl

/-- A register read on chain `c`, answered with bytes made from the value (R227, R229, R232). -/
theorem respond_readRegister (c a : Byte) (bytes : Word → List Byte) (s : State) :
    respond (bytes (readRegister c a s).1) 0 (readRegister c a s).2 = .next (s.completed
      [.scWriteIr c Config.irUser, .scWriteDr c (readPayload a) 6 true, .scReadDr c 32 [0, 0, 0, 0],
        .scReset c, .emit (bytes (unpackBits (s.nextAnswers 4) 32))] 4 0) := by
  rw [readRegister_eq, respond_did]
  rfl

/-- Settles O22, by `respond_readCode`. -/
theorem codeReadsComplete : Obligations.CodeReadsComplete := by
  unfold Obligations.CodeReadsComplete
  intro s d c hr
  exact ⟨(onDevice_some hr _).trans (respond_readCode c _ s),
    (onDevice_some hr _).trans (respond_readCode c _ s)⟩

/-- Settles O23, by `respond_readRegister`. -/
theorem registerReadsComplete : Obligations.RegisterReadsComplete := by
  unfold Obligations.RegisterReadsComplete
  intro s d c a hr
  rw [← rb4_unpackBits (s.length_nextAnswers 4)]
  exact ⟨(onDevice_some hr _).trans (respond_readRegister c a rb4 s),
    (onDevice_some hr _).trans (respond_readRegister c _ rb4 s)⟩

/-- Settles O24, by `respond_readRegister`; the mask is that of the slot's own mark. -/
theorem resultReadCompletes : Obligations.ResultReadCompletes := by
  unfold Obligations.ResultReadCompletes
  intro s d c h hr
  rw [← rb4_maskResult_unpackBits (s.length_nextAnswers 4), ← State.isCapped_of_lt h]
  exact (onDevice_some hr _).trans
    (respond_readRegister c _ (fun v => rb4 (maskResult (s.isCapped d) v)) s)

/-! ### The commands that write -/

/-- One register write and its response (R226, R231). -/
theorem respond_writeRegister (c a : Byte) (v : Word) (bytes : List Byte) (s : State) :
    respond bytes 0 (writeRegister c a v s) = .next (s.completed
      [.scWriteIr c Config.irUser, .scWriteDr c (writePayload a v) 38 true, .scRun c 1, .emit bytes]
      0 0) := by
  rw [writeRegister_eq, respond_did]
  rfl

/-- Settles O25, by `respond_writeRegister`. -/
theorem registerWriteCompletes : Obligations.RegisterWriteCompletes := by
  unfold Obligations.RegisterWriteCompletes
  intro s d c a v hr
  exact (onDevice_some hr _).trans (respond_writeRegister c a v _ s)

/-- A request above 250 is clamped (R226). -/
theorem clockClamped_eq (r : Word) : clockClamped r = decide (250 < r.toNat) := rfl

/-- SETCLK on a filled slot, whatever is requested. -/
theorem exec_setclk {s : State} {d c : Byte} (h : d.toNat < 5) (hr : s.resolve d = some c) (r : Word) :
    exec (.setclk d r) s = .next { s.completed
      [.scWriteIr c Config.irUser,
        .scWriteDr c (writePayload (Config.regClockWr.setWidth 8) (clockValue r)) 38 true,
        .scRun c 1, .emit [clockReply r]] 0 0 with
      capped := s.capped.set d.toNat (clockClamped r) } := by
  show execSetclk d r s = _
  rw [execSetclk, onDevice_some hr, respond_writeRegister, State.setCapped_of_lt h,
    State.completed_withCapped]

/-- Settles O26: the value, the response and the mark follow from whether the request is clamped. -/
theorem clockRequestCompletes : Obligations.ClockRequestCompletes := by
  unfold Obligations.ClockRequestCompletes
  intro s d c r h hr
  refine ⟨fun hclamp => ?_, fun haccept => ?_⟩
  · have hc : clockClamped r = true := by simp [clockClamped_eq, hclamp]
    simp [exec_setclk h hr, clockValue, clockReply, clockClamp, hc]
  · have hc : clockClamped r = false := by simp [clockClamped_eq, haccept]
    simp [exec_setclk h hr, clockValue, clockReply, hc]

/-- Consecutive register writes, by the index of the word (R228). -/
theorem writeEvents_eq_flatMap (c : Byte) (a : Nat) (ws : List Word) :
    writeEvents c a ws = (List.range ws.length).flatMap fun j =>
      [.scWriteIr c Config.irUser, .scWriteDr c (writePayload (BitVec.ofNat 8 (a + j)) (ws.getD j 0)) 38 true,
        .scRun c 1] := by
  induction ws generalizing a with
  | nil => rfl
  | cons w ws ih =>
    rw [writeEvents, ih, List.length_cons, List.range_succ_eq_map, List.flatMap_cons, List.flatMap_map]
    simp [Nat.add_assoc, Nat.add_comm 1]

/-- Settles O27, by `writeWords_eq` and the writes' indices. -/
theorem workSubmissionCompletes : Obligations.WorkSubmissionCompletes := by
  unfold Obligations.WorkSubmissionCompletes
  intro s d c ws hws hr
  show execWork d ws s = _
  rw [execWork, onDevice_some hr, writeWords_eq, respond_did, writeEvents_eq_flatMap, hws]
  rfl

/-! ### The commands over other units -/

/-- A temperature read on triple `t`, answered with bytes made from the reading (R230, R233). -/
theorem respond_readTemperature {d : Byte} {t : Fin 4} (h : tripleOf d = some t) (n : Nat)
    (bytes : BitVec 16 → List Byte) (s : State) :
    respond (bytes (readTemperature d n s).1) 0 (readTemperature d n s).2 = .next { s.completed
      (configureEvents s.configured ++ [.gpioWrite (csPin t) false] ++ pulseEvents t n ++
        [.gpioWrite (csPin t) true, .emit (bytes (readingOf 0 (s.nextAnswers n)))]) n 0
      with configured := true } := by
  rw [readTemperature_eq h, respond_did_withConfigured, List.append_assoc _ [_] [_]]
  rfl

/-- Settles O28, by `respond_readTemperature`: the device byte is below `TEMP_DEVICES`. -/
theorem temperatureReadsComplete : Obligations.TemperatureReadsComplete := by
  unfold Obligations.TemperatureReadsComplete
  intro s d h
  have hd : ¬ tempDevices ≤ d.toNat := Nat.not_le_of_lt h
  have ht := tripleOf_some hd
  exact ⟨(if_neg hd).trans
      (respond_readTemperature ht 9 (fun v => [Config.coarseByte (v.setWidth 9)]) s),
    (if_neg hd).trans
      (respond_readTemperature ht 16 (fun v => [v.extractLsb' 0 8, v.extractLsb' 8 8]) s)⟩

/-- Settles O31, by `auxShift_eq`. -/
theorem auxiliaryShiftCompletes : Obligations.AuxiliaryShiftCompletes := by
  unfold Obligations.AuxiliaryShiftCompletes
  intro s d c n p hr
  show execAuxshift d n p s = _
  rw [execAuxshift, onDevice_some hr, auxShift_eq, respond_did]
  rfl

/-! ### The frame of every command (10_state.md section 8) -/

/-- No command touches the frame buffer's bytes or the input. -/
theorem ExecNext.keeps_frame_host {i : Instr} {s t : State} (h : ExecNext i s t) :
    t.frame = s.frame ∧ t.host = s.host := by
  cases h with
  | unassigned | short => exact ⟨rfl, rfl⟩
  | waits | done | header | chunk | final => simp

/-- The record only grows. -/
theorem ExecNext.trace_grows {i : Instr} {s t : State} (h : ExecNext i s t) :
    ∃ evs, t.trace = s.trace ++ evs := by
  cases h with
  | unassigned | short => exact ⟨[], (List.append_nil _).symm⟩
  | waits | done | header | chunk | final => exact ⟨_, rfl⟩

/-- A mark changes by SETCLK only, and only its own slot's (R226). -/
theorem ExecNext.capped_get {i : Instr} {s t : State} (h : ExecNext i s t) (k : Fin 5) :
    t.capped.get k = s.capped.get k ∨ ∃ d r, i = .setclk d r ∧ d.toNat = k.val := by
  cases h with
  | unassigned | short => exact .inl rfl
  | waits | header | chunk | final => simp
  | done events bytes n capped configured hi hr he hl hc hg =>
    rcases hc with rfl | ⟨d, r, b, hd, rfl, rfl⟩
    · exact .inl rfl
    · by_cases hk : d.toNat = k.val
      · exact .inr ⟨d, r, rfl, hk⟩
      · exact .inl (Vector.getElem_set_ne hd k.isLt hk)

/-- The temperature pins are configured by TEMP and TEMP16 only (R230, R233). -/
theorem ExecNext.configured_eq {i : Instr} {s t : State} (h : ExecNext i s t) :
    (∃ d, i = .temp d ∨ i = .temp16 d) ∨ t.configured = s.configured := by
  cases h with
  | unassigned | short => exact .inr rfl
  | waits | header | chunk | final => simp
  | done events bytes n capped configured hi hr he hl hc hg => exact hg.symm

/-- The transfer is moved on by PROG and CHUNK only (44_bitstream.md rule R170). -/
theorem ExecNext.keeps_transfer {i : Instr} {s t : State} (h : ExecNext i s t) :
    (∃ d L, i = .prog d L) ∨ (∃ d data, i = .chunk d data) ∨
      (t.phase = s.phase ∧ t.remaining = s.remaining) := by
  cases h with
  | unassigned | short => exact .inr (.inr ⟨rfl, rfl⟩)
  | waits d c L hi | header d c L hi => exact .inl ⟨d, L, hi⟩
  | chunk d c data hi | final d c data hi => exact .inr (.inl ⟨d, data, hi⟩)
  | done => simp

/-- The faults that a command can take (60_exceptions.md rule R261). -/
theorem ExecNext.fault_cases {i : Instr} {s t : State} (h : ExecNext i s t) :
    t.fault = s.fault ∨ t.fault = some .unassignedDevice ∨
      (t.fault = some .bitstreamShort ∧ ∃ d data, i = .chunk d data) := by
  cases h with
  | unassigned => exact .inr (.inl rfl)
  | short d c data hi => exact .inr (.inr ⟨rfl, d, data, hi⟩)
  | waits | done | header | chunk | final => simp

/-- A consumed command empties the buffer, or keeps the header of a transfer (45_dispatcher.md rule R205). -/
theorem ExecNext.len_cases {i : Instr} {s t : State} (h : ExecNext i s t) :
    t.len = s.len ∨ t.len = 0 ∨
      (t.len = 2 ∧ ((∃ d L, i = .prog d L) ∨ ∃ d data, i = .chunk d data)) := by
  cases h with
  | unassigned | short => exact .inl rfl
  | waits => exact .inl (by simp)
  | done | final => exact .inr (.inl rfl)
  | header d c L hi => exact .inr (.inr ⟨rfl, .inl ⟨d, L, hi⟩⟩)
  | chunk d c data hi => exact .inr (.inr ⟨rfl, .inr ⟨d, data, hi⟩⟩)

/-- Settles O55, by what the cases of `ExecNext` say of each field. -/
theorem commandsKeepTheirFrame : Obligations.CommandsKeepTheirFrame := by
  unfold Obligations.CommandsKeepTheirFrame
  intro s t i hexec
  have h := exec_next hexec
  obtain ⟨hframe, hhost⟩ := h.keeps_frame_host
  obtain ⟨hpos, hcount⟩ := h.keeps_topology
  exact ⟨fun a => by rw [hframe], hpos, hcount, hhost, h.trace_grows, h.capped_get, h.configured_eq,
    h.keeps_transfer, h.fault_cases, h.len_cases⟩

end Sys2Proof.Machine
end

section
/-!
PROOFS of the statements of 60_exceptions.md: which command takes which fault (R261, R265), what a step that
takes one changes (R262), the step out of a faulted state (R262, R263), how long a command runs, and the header's
poll that hangs (R264).
-/

namespace Sys2Proof.Machine

/-! ### Taking a fault -/

/-- A command that takes a fault changes FAULT and the outcome only; the two faults and their causes (R261,
R262). -/
theorem ExecNext.of_fault {i : Instr} {s t : State} {code : FaultCode} (h : ExecNext i s t)
    (hf : s.fault = none) (ht : t.fault = some code) :
    t = { s with fault := some code, outcome := none } ∧
      ((code = .unassignedDevice ∧ ∃ d, resolvedByte i = some d ∧ s.resolve d = none) ∨
        (code = .bitstreamShort ∧ ∃ d data c, i = .chunk d data ∧ s.resolve d = some c ∧
          s.phase = .headerReceived ∧ s.remaining.toNat < 32)) := by
  cases h with
  | unassigned d hi hr =>
    cases ht
    exact ⟨rfl, .inl ⟨rfl, d, hi, hr⟩⟩
  | short d c data hi hr hp hl =>
    cases ht
    exact ⟨rfl, .inr ⟨rfl, d, data, c, hi, hr, hp, hl⟩⟩
  | done | waits | header | chunk | final => simp [hf] at ht

/-- Settles O43: a fault's cause is that of `ExecNext.of_fault`, and each cause brings its fault about by
`unassignedDeviceFaultsFirst` and `shortTransferFaults`. -/
theorem faultCauses : Obligations.FaultCauses := by
  unfold Obligations.FaultCauses
  intro s t i hf hexec
  have h := exec_next hexec
  refine ⟨⟨fun ht => ?_, ?_⟩, ⟨fun ht => ?_, ?_⟩, h.fault_ne_frameOverflow hf⟩
  · obtain ⟨-, ⟨-, hcause⟩ | ⟨hcode, -⟩⟩ := h.of_fault hf ht
    · exact hcause
    · cases hcode
  · rintro ⟨d, hi, hr⟩
    cases hexec.symm.trans (unassignedDeviceFaultsFirst.2.2 s i d hi hr)
    rfl
  · obtain ⟨-, ⟨hcode, -⟩ | ⟨-, hcause⟩⟩ := h.of_fault hf ht
    · cases hcode
    · exact hcause
  · rintro ⟨d, data, c, rfl, hr, hp, hl⟩
    cases hexec.symm.trans (shortTransferFaults s d c data hr hp hl)
    rfl

/-- Settles O44: only a byte's step takes a fault, by a full buffer or by the command that it completes. -/
theorem faultEntryIsPrecise : Obligations.FaultEntryIsPrecise := by
  unfold Obligations.FaultEntryIsPrecise
  intro s t code hf hstep ht
  cases step_next hstep with
  | powerOn => cases ht
  | connect | idle | needMore => cases hf.symm.trans ht
  | discovered =>
    rw [discover_fault] at ht
    cases hf.symm.trans ht
  | polled | headerDone => simp [hf] at ht
  | overflow b rest _ hc hh hl =>
    cases ht
    exact ⟨b, rest, hh, hc, .inl ⟨rfl, hl, rfl⟩⟩
  | ran b rest F i _ _ hc hh hl hF hd hi =>
    obtain ⟨heq, -⟩ := hi.of_fault hf ht
    have hcode : code ≠ .frameOverflow := by
      rintro rfl
      exact hi.fault_ne_frameOverflow hf ht
    exact ⟨b, rest, hh, hc, .inr ⟨hcode, heq⟩⟩

/-! ### Out of a faulted state -/

/-- A faulted sequencer whose next input is no power-on leaves its thread of control alone (R262). -/
theorem step_of_faulted {s : State} {code : FaultCode} (hf : s.fault = some code)
    (hp : s.host.head? ≠ some .powerOn) : step s = stepFaulted code s := by
  unfold step advance
  split
  · rename_i hh; simp [hh] at hp
  · rw [hf]

/-- Settles O45: of the four inputs only the two resets move a faulted sequencer. -/
theorem faultedSequencerHasNoSuccessor : Obligations.FaultedSequencerHasNoSuccessor := by
  unfold Obligations.FaultedSequencerHasNoSuccessor
  intro s code hf hconnect hpower
  rw [step_of_faulted hf hpower, stepFaulted]
  split
  · rename_i hh; simp [hh] at hconnect
  · rfl

/-- Settles O46: every case of `StepNext` but the two resets is of an unfaulted state. -/
theorem onlyProcessResetClearsFault : Obligations.OnlyProcessResetClearsFault := by
  unfold Obligations.OnlyProcessResetClearsFault
  intro s t code hf hstep
  cases step_next hstep with
  | powerOn rest hh => exact .inl ⟨by rw [hh]; rfl, rfl⟩
  | connect rest hh hc => exact .inr ⟨by rw [hh]; rfl, hf, rfl⟩
  | discovered _ hnone | polled _ _ _ hnone | headerDone _ _ _ hnone | idle _ hnone | overflow _ _ hnone
  | needMore _ _ _ _ hnone | ran _ _ _ _ _ hnone => cases hf.symm.trans hnone

/-! ### How long a command runs -/

/-- Settles O59, by the cases of `ExecNext`: a faulting command records nothing, a chunk at most five events. -/
theorem commandsRunBoundedTransactions : Obligations.CommandsRunBoundedTransactions := by
  unfold Obligations.CommandsRunBoundedTransactions
  intro s t i hwf hprog hexec
  cases exec_next hexec with
  | unassigned | short => exact Nat.le_add_right _ _
  | waits d c L hi | header d c L hi => exact absurd hi (hprog d L)
  | chunk | final => simp [chunkEvents]
  | done events bytes n capped configured hi hr he hl hc hg =>
    have hlen := hl hwf
    simp only [State.completed_trace, List.length_append, List.length_singleton]
    omega

/-! ### The poll that hangs -/

/-- The transactions after a busy poll stand behind that poll's own. -/
theorem State.did_polledBusy {s : State} {c : Byte} {L : Word} (hc : s.ctl = .polling c L)
    (es : List Event) (n : Nat) :
    { (s.polledBusy c L).did es n with outcome := none } =
      { s.did (.scReadIr c :: es) (n + 1) with outcome := none } := by
  have h := State.did_did [.scReadIr c] es 1 n s
  rw [List.singleton_append, Nat.add_comm 1 n] at h
  rw [← h]
  simp [State.polledBusy, State.did, State.takeAnswers_eq, hc]

/-- Settles O34, by induction on the number of busy answers. -/
theorem pollHangsWhileBusy : Obligations.PollHangsWhileBusy := by
  unfold Obligations.PollHangsWhileBusy
  intro s c L n
  induction n generalizing s with
  | zero =>
    intro hf hc hpower hpause hbusy
    rw [List.replicate_succ, List.replicate_zero, ← State.did_polledBusy hc, State.did_nil]
    exact runSteps_succ (step_polling_busy hf hc hpower hpause (hbusy 0 le_rfl)) 0
  | succ n ih =>
    intro hf hc hpower hpause hbusy
    rw [State.nextAnswers_succ_polledBusy c L] at hbusy
    have hfirst : pollBusy s.nextAnswer = true := hbusy 0 (n + 1).zero_le
    have hrest : ∀ k, k ≤ n → pollBusy (((s.polledBusy c L).nextAnswers (n + 1)).getD k 0) = true :=
      fun k hk => hbusy (k + 1) (Nat.succ_le_succ hk)
    rw [List.replicate_succ, ← State.did_polledBusy hc,
      runSteps_succ (step_polling_busy hf hc hpower hpause hfirst)]
    exact ih (s.polledBusy c L) (by simpa using hf) rfl (by simpa using hpower) (by simpa using hpause) hrest

end Sys2Proof.Machine
end

section
/-!
PROOFS of the statements of 70_reset_and_hazards.md: the steps of the two resets (R290, R292), and the
invariants of the state right after process reset.
-/

namespace Sys2Proof.Machine

/-- A power-on comes before anything else: process reset from any state (R290, R295). -/
theorem step_powerOn {s : State} {rest : List HostInput} (hh : s.host = .powerOn :: rest) :
    step s = .next ({ s with host := rest } : State).processReset := by
  simp only [step, advance, hh]

/-- A new connection to a faulted sequencer is a session reset (R263; log 9). -/
theorem step_connect_of_faulted {s : State} {rest : List HostInput} {code : FaultCode}
    (hf : s.fault = some code) (hh : s.host = .connect :: rest) :
    step s = .next ({ s with host := rest } : State).sessionReset := by
  rw [step_of_faulted hf (by simp [hh])]
  simp only [stepFaulted, hh]

/-- A new connection to a sequencer that waits for a byte is a session reset (R292). -/
theorem step_connect_of_ready {s : State} {rest : List HostInput} (hf : s.fault = none)
    (hc : s.ctl = .ready) (hh : s.host = .connect :: rest) :
    step s = .next ({ s with host := rest } : State).sessionReset := by
  rw [step_of_running hf (by simp [hh]), stepRunning_ready hc]
  simp only [stepReady, hh]

/-- Process reset leaves every slot of the Device Table unfilled (R26, R290). -/
theorem reset_pos_get (k : Fin 5) : State.reset.pos.get k = unassigned := by
  revert k
  decide

/-- Settles O47: the step is `processReset`, whose fields are those of `State.reset`. -/
theorem processResetSetsEveryElement : Obligations.ProcessResetSetsEveryElement := by
  unfold Obligations.ProcessResetSetsEveryElement
  intro s rest hh
  exact ⟨_, step_powerOn hh, rfl, rfl, rfl, rfl, rfl, fun k => ⟨reset_pos_get k, reset_capped_get k⟩,
    rfl, rfl, rfl, rfl⟩

/-- Settles O48: faulted or ready, the step is `sessionReset`. -/
theorem sessionResetKeepsProcessState : Obligations.SessionResetKeepsProcessState := by
  unfold Obligations.SessionResetKeepsProcessState
  intro s rest hh hwait
  by_cases hf : s.fault = none
  · have hc : s.ctl = .ready := hwait.resolve_left fun hfaulted => hfaulted hf
    exact step_connect_of_ready hf hc hh
  · obtain ⟨code, hcode⟩ := Option.ne_none_iff_exists'.mp hf
    exact step_connect_of_faulted hcode hh

/-- Settles O50: process reset meets the invariant from any state, and its frame buffer is empty. -/
theorem resetMeetsInvariants : Obligations.ResetMeetsInvariants :=
  ⟨inv_processReset State.reset, atRest_of_empty rfl⟩

end Sys2Proof.Machine
end
